-- ==== Sys2Proof/Config.lean ====
section
/-!
DEFINITION. The constants of the BF-IFD core (spec/00_scope.md R6, R9) and what an
implementation fixes: the depth of instruction memory, and the contents of instruction-memory
words that were never loaded.
-/

namespace Sys2Proof.Config

/-- R6: the tape has exactly 65535 (0xFFFF) cells; the data pointer counts modulo this number. -/
abbrev tapeLen : Nat := 65535

/-- R6: cell arithmetic is modulo 256. Independent of `tapeLen` (R6, R7). -/
abbrev cellMod : Nat := 256

/-- How many words of instruction memory there are beyond the first; `none` is an unbounded
memory. R9 leaves `IMEM_DEPTH` open ("natural number, at least 1", possibly unbounded, D4), so it
has no body here. DESIGN CHOICE, log entry 1: an uninterpreted constant. Safe. -/
opaque imemWordsAfterFirst : Option Nat

/-- R9, `IMEM_DEPTH`: the number of words of instruction memory, at least 1; `none` is unbounded. -/
def imemDepth : Option Nat := imemWordsAfterFirst.map (· + 1)

/-- `n` words of instruction memory fit in a memory of this depth (R9: `0 <= LEN <= IMEM_DEPTH`;
every length fits an unbounded memory, D4). -/
def Fits (depth : Option Nat) (n : Nat) : Prop := ∀ d, depth = some d → n ≤ d

/-- R9, `PC_W = ceil(log2(IMEM_DEPTH + 1))`, for a memory of `depth >= 1` words: the number of
binary digits of `depth`, the least width in which the value `LEN = depth` can be written. -/
def pcBits (depth : Nat) : Nat := Nat.log2 depth + 1

/-- R9, `STEP_BUDGET`: fixed to none by the spec (D11). The core has no step budget (R106). -/
def stepBudget : Option Nat := none

/-- What word `i` of instruction memory holds when the load front end never wrote it. R27 and U14:
the contents are unspecified, "any value", and no rule reads them. A free value with no body, log
entry 2. Safe. -/
opaque unloadedWord : Nat → BitVec 3

end Sys2Proof.Config
end

