-- ==== Sys2Proof/Word.lean ====
section
/-!
DEFINITION. The word types of the BF-IFD core (spec/00_scope.md R8; spec/10_state.md R24 to R28).
-/

namespace Sys2Proof

/-- R70, R8 (`OPC_W = 3`): one word of instruction memory, one opcode. -/
abbrev Opcode := BitVec 3

/-- R26, R6 (`CELL_BITS = 8`): one cell of the tape, an unsigned value. -/
abbrev CellValue := BitVec 8

/-- R75, R8 (`CHAR_W = 8`): one unit on the load port, a character code. -/
abbrev CharCode := BitVec 8

/-- R24: the data pointer, a number below 65535, so that the pattern 0xFFFF cannot be written (D21). -/
abbrev DataPtr := Fin Config.tapeLen

end Sys2Proof
end

