-- ==== Sys2Proof/Syntax.lean ====
section
/-!
DEFINITION. The instructions of the BF-IFD core: the eight rows of spec/opcode_table.json. No
instruction has an operand (spec/30_encoding.md R72), so no constructor has a field.
-/

namespace Sys2Proof

/-- R1, R71: the closed set of eight instructions, in the order of the opcode map. -/
inductive Instr where
  /-- `>`, opcode 000 (R110). -/
  | moveRight
  /-- `<`, opcode 001 (R111). -/
  | moveLeft
  /-- `+`, opcode 010 (R120). -/
  | increment
  /-- `-`, opcode 011 (R121). -/
  | decrement
  /-- `.`, opcode 100 (R130). -/
  | output
  /-- `,`, opcode 101 (R132). -/
  | input
  /-- `[`, opcode 110 (R140). -/
  | jumpIfZero
  /-- `]`, opcode 111 (R141). -/
  | jumpIfNonZero
deriving DecidableEq, Repr

/-- A program as the spec's prose speaks of it: "an ordered, immutable sequence of Instructions" (R27). -/
abbrev Program := List Instr

end Sys2Proof
end

