-- ==== Sys2Proof/WellFormed.lean ====
section
/-!
DEFINITION. Well-formedness. An instruction has no operands, so every term of `Instr` is well
formed (spec/30_encoding.md R72). The check that can fail is the one on programs: balanced brackets
(spec/45_loop_jumps.md R150). The hardware does not make it and loads every program (R96); it is
the premise of claims that hold of balanced programs only.
-/

namespace Sys2Proof

/-- R72: no instruction has an operand, so there is nothing an instruction could get wrong. -/
def Instr.wf (i : Instr) : Bool :=
  match i with
  | .moveRight | .moveLeft | .increment | .decrement => true
  | .output | .input | .jumpIfZero | .jumpIfNonZero => true

/-- R150, with the counter at `depth`: add 1 at each `[`, subtract 1 at each `]`, never below 0, and
0 at the end. -/
def balancedFrom : Nat → Program → Bool
  | depth, [] => depth == 0
  | depth, .jumpIfZero :: rest => balancedFrom (depth + 1) rest
  | 0, .jumpIfNonZero :: _ => false
  | depth + 1, .jumpIfNonZero :: rest => balancedFrom depth rest
  | depth, .moveRight :: rest => balancedFrom depth rest
  | depth, .moveLeft :: rest => balancedFrom depth rest
  | depth, .increment :: rest => balancedFrom depth rest
  | depth, .decrement :: rest => balancedFrom depth rest
  | depth, .output :: rest => balancedFrom depth rest
  | depth, .input :: rest => balancedFrom depth rest

/-- R150: `Balanced(P)`. -/
def balanced (p : Program) : Bool := balancedFrom 0 p

end Sys2Proof
end

