-- ==== Sys2Proof/Decode.lean ====
section
/-!
DEFINITION. Both encodings of spec/30_encoding.md: the instruction-memory form (R70, R71), which
the core executes, and the source form (R75, R76), which the load front end reads. Decoder first,
then the encoder, written from the same tables.
-/

namespace Sys2Proof

/-- R71, the opcode map: bits 2, 1 and 0 of the word select the instruction. Total: all eight
words are assigned (R73). -/
def decode (w : Opcode) : Instr :=
  match w.getLsbD 2, w.getLsbD 1, w.getLsbD 0 with
  | false, false, false => .moveRight
  | false, false, true  => .moveLeft
  | false, true,  false => .increment
  | false, true,  true  => .decrement
  | true,  false, false => .output
  | true,  false, true  => .input
  | true,  true,  false => .jumpIfZero
  | true,  true,  true  => .jumpIfNonZero

/-- Why bits are no instruction. Every 3-bit word is one (R73), so the one reason is the width. -/
inductive DecodeReject where
  /-- The bits do not fit one 3-bit word, and every instruction is one word (R70, R74). -/
  | widerThanOneWord
deriving DecidableEq, Repr

/-- Decodes bits given as a number, bit 0 least significant: one 3-bit word (R70), or a rejection
by name. Log entry 13. -/
def decodeBits (bits : Nat) : Except DecodeReject Instr :=
  if bits < 8 then .ok (decode (BitVec.ofNat 3 bits))
  else .error .widerThanOneWord

/-- The instruction that the decoder reads from an opcode-table word. The row has 3 bits; the bits
above them, up to a whole byte or more, are 0 in an instruction. -/
def decodeTableWord (_nbits w : Nat) : Option Instr :=
  match decodeBits w with
  | .ok i => some i
  | .error _ => none

/-- R71, the opcode map read the other way: the one word of an instruction. -/
def encode (i : Instr) : Opcode :=
  match i with
  | .moveRight     => 0b000#3
  | .moveLeft      => 0b001#3
  | .increment     => 0b010#3
  | .decrement     => 0b011#3
  | .output        => 0b100#3
  | .input         => 0b101#3
  | .jumpIfZero    => 0b110#3
  | .jumpIfNonZero => 0b111#3

/-- R75, R91, `SymbolToOpcode`: the opcode that a source character loads as; `none` for the other
248 codes, which are comments (R76). -/
def symbolToOpcode (c : CharCode) : Option Opcode :=
  if c = 0x3E#8 then some 0#3
  else if c = 0x3C#8 then some 1#3
  else if c = 0x2B#8 then some 2#3
  else if c = 0x2D#8 then some 3#3
  else if c = 0x2E#8 then some 4#3
  else if c = 0x2C#8 then some 5#3
  else if c = 0x5B#8 then some 6#3
  else if c = 0x5D#8 then some 7#3
  else none

/-- R75: the source symbol of an instruction. -/
def sourceSymbol (i : Instr) : CharCode :=
  match i with
  | .moveRight     => 0x3E#8
  | .moveLeft      => 0x3C#8
  | .increment     => 0x2B#8
  | .decrement     => 0x2D#8
  | .output        => 0x2E#8
  | .input         => 0x2C#8
  | .jumpIfZero    => 0x5B#8
  | .jumpIfNonZero => 0x5D#8

/-- R92, `Load(t)`: the opcodes of the instruction symbols of a source text, in order. -/
def loadText (t : List CharCode) : List Opcode := t.filterMap symbolToOpcode

/-- R78: disassembly prints each opcode as its symbol. -/
def printText (p : List Opcode) : List CharCode := p.map (fun w => sourceSymbol (decode w))

end Sys2Proof
end

