-- ==== Sys2Proof/Machine/State.lean ====
section
/-!
DEFINITION. The state of the BF-IFD core (spec/10_state.md), plain data, and the state right after
reset (spec/70_reset_and_hazards.md R190). Operations on it are in Machine/Ops.lean.
-/

namespace Sys2Proof.Machine

/-- R29: the four values of `STATUS.RS`. -/
inductive RunState where
  /-- Code 0: the host may load a program. -/
  | load
  /-- Code 1: the core executes. -/
  | run
  /-- Code 2: normal end (R104). -/
  | halt
  /-- Code 3: the end of a run by `MalformedProgram` (R164). -/
  | fault
deriving DecidableEq, Repr

/-- R30, `CAUSE`: two values only; codes 2 and 3 are never produced (U17). -/
inductive FaultCause where
  /-- Code 0: no fault since reset. -/
  | none
  /-- Code 1. -/
  | malformedProgram
deriving DecidableEq, Repr

/-- R30, `DIR`. -/
inductive FaultDir where
  /-- Code 0, `Open`: an unmatched `JumpIfZero`; the forward scan ran past the end. -/
  | opening
  /-- Code 1, `Close`: an unmatched `JumpIfNonZero`; the backward scan ran before index 0. -/
  | closing
deriving DecidableEq, Repr

/-- R30: the fields of `FAULTINFO`. `atIndex` is the field `AT`. -/
structure FaultInfo where
  cause : FaultCause
  dir : FaultDir
  atIndex : Nat
deriving DecidableEq, Repr

/-- R196: what the host can do in one turn. -/
inductive HostMove where
  /-- The event `Reset` (R190). -/
  | reset
  /-- The event `LoadChar(c)` (R91). -/
  | loadChar (c : CharCode)
  /-- The event `Start` (R40). -/
  | start
  /-- The host sends nothing; the core takes its `Step` if it has one. -/
  | listen
deriving DecidableEq, Repr

/-- Why the machine stops. -/
inductive Fault where
  /-- Raised by a step in `LOAD` when no host move is left: the core has no step of its own there
  (R40, R180). Safe: the hardware waits, it does not go on. Log entry 4. -/
  | noStepInLoad
  /-- Raised by a step in `HALT` when no host move is left: the run has ended normally (R104, R105)
  and the core has no step (R40). Safe. Log entry 4. -/
  | noStepInHalt
  /-- Raised by a step in `FAULT` when no host move is left: the core stopped by `MalformedProgram`
  (R164), reported with `DIR` and `AT`, and must not be stepped further (R165). Safe. Log entry 4. -/
  | malformedProgram (dir : FaultDir) (atIndex : Nat)
  /-- Raised by a step in `RUN` with `PC > LEN`, which R15 rules out and no run reaches. Safe. Log
  entry 5. -/
  | pcBeyondProgram
deriving DecidableEq, Repr

/-- Why an instruction has no meaning. -/
inductive Refusal where
  /-- Raised by `exec` for an instruction that has no meaning yet; no arm of this model does. Safe. -/
  | notModelled (mnemonic : String)
deriving DecidableEq, Repr

/-- `spec/10_state.md` section 1, every piece of state but the scan registers, which R31 makes
locals of the scan; and the host's moves to come, which are the model's own field (log entry 3). -/
structure State where
  /-- R27: words of instruction memory, index 0 first. The program is the first `len` of them; a
  word not listed was never loaded and is unspecified. -/
  imem : List Opcode
  /-- R22: the number of instructions loaded. -/
  len : Nat
  /-- R26: the cells of the tape that do not hold 0, as (index, value), indices rising. -/
  tape : List Host.Cell
  /-- R24: the data pointer. -/
  dp : DataPtr
  /-- R21: the instruction pointer, an index of instruction memory. -/
  pc : Nat
  /-- R28: the output buffer, oldest element first. -/
  out : List CellValue
  /-- R29: `STATUS.RS`. -/
  rs : RunState
  /-- R29: `STATUS.LDOVF`. -/
  ldovf : Bool
  /-- R30. -/
  faultInfo : FaultInfo
  /-- The host's moves still to come, the next one first; when none is left the host listens. -/
  hostMoves : List HostMove
deriving DecidableEq, Repr

/-- R30: `FAULTINFO` with all fields 0. -/
def FaultInfo.zero : FaultInfo := { cause := .none, dir := .opening, atIndex := 0 }

/-- R190: the state right after reset. `imem` lists no word (log entry 2) and the host has no move
pending (log entry 3); every other value is the spec's. -/
def State.reset : State where
  imem := []
  len := 0
  tape := []
  dp := ⟨0, by decide⟩
  pc := 0
  out := []
  rs := .load
  ldovf := false
  faultInfo := FaultInfo.zero
  hostMoves := []

end Sys2Proof.Machine
end

