-- ==== Sys2Proof/Machine/Ops.lean ====
section
/-!
DEFINITION. The named operations over the memories and registers of State (spec/00_scope.md R14),
the bracket scan (spec/45_loop_jumps.md R142 to R145), taking the one exception
(spec/60_exceptions.md R164) and leaving it by reset (R167, R190). Each is used by every
instruction or event that needs it.
-/

namespace Sys2Proof.Machine

/-! ## The tape -/

/-- R26: "All cells initialize to 0": what a cell that is not listed reads as. -/
def Memory.unlisted : CellValue := 0#8

/-- The cell at index `a`. -/
def Memory.read : List Host.Cell → Nat → CellValue
  | [], _ => Memory.unlisted
  | (b, v) :: rest, a =>
    if a < b then Memory.unlisted
    else if a = b then v
    else Memory.read rest a

/-- The tape with cell `a` holding `v` and every other cell as before, in canonical form. -/
def Memory.write : List Host.Cell → Nat → CellValue → List Host.Cell
  | [], a, v => if v = Memory.unlisted then [] else [(a, v)]
  | (b, w) :: rest, a, v =>
    if a < b then
      if v = Memory.unlisted then (b, w) :: rest else (a, v) :: (b, w) :: rest
    else if a = b then
      if v = Memory.unlisted then rest else (a, v) :: rest
    else (b, w) :: Memory.write rest a v

/-- The canonical form from index `lo` on: indices strictly rising and below `TAPE_LEN`, and no
listed cell equal to what an unlisted one reads as. -/
def Memory.wfFrom : Nat → List Host.Cell → Bool
  | _, [] => true
  | lo, (b, v) :: rest =>
    decide (lo ≤ b) && decide (b < Config.tapeLen) && decide (v ≠ Memory.unlisted)
      && Memory.wfFrom (b + 1) rest

/-- The canonical form of the tape. -/
def Memory.wf (m : List Host.Cell) : Bool := Memory.wfFrom 0 m

/-- R14, R53: `MemRead(a, 1) = TAPE[a]`. Every data pointer is the index of a cell, so it cannot
fault (R54). -/
def memRead (a : DataPtr) (s : State) : CellValue := Memory.read s.tape a.val

/-- R14, R53: `MemWrite(a, 1, v)`. -/
def memWrite (a : DataPtr) (v : CellValue) (s : State) : State :=
  { s with tape := Memory.write s.tape a.val v }

/-! ## Instruction memory -/

/-- R14: `IFetch(i) = IMEM[i]`. A word that was never loaded is unspecified (R27); no rule reads one. -/
def ifetch (i : Nat) (s : State) : Opcode := s.imem.getD i (Config.unloadedWord i)

/-- R71: the instruction that the word at index `i` stands for. -/
def instrAt (i : Nat) (s : State) : Instr := decode (ifetch i s)

/-- R27: the program, `IMEM[0 .. LEN-1]`. -/
def program (s : State) : List Opcode := s.imem.take s.len

/-- Instruction memory whose first listed word has index `base`, with the word `n` places further on
replaced by `w`. Words in between that were never loaded stay unspecified. -/
def Imem.writeFrom : Nat → List Opcode → Nat → Opcode → List Opcode
  | _, [], 0, w => [w]
  | base, [], n + 1, w => Config.unloadedWord base :: Imem.writeFrom (base + 1) [] n w
  | _, _ :: rest, 0, w => w :: rest
  | base, x :: rest, n + 1, w => x :: Imem.writeFrom (base + 1) rest n w

/-- `IMEM[i] <- w`. -/
def imemWrite (i : Nat) (w : Opcode) (s : State) : State :=
  { s with imem := Imem.writeFrom 0 s.imem i w }

/-! ## The pointers -/

/-- R110: `(DP + 1) mod 65535`, by explicit modulo logic (R113). -/
def nextPtr (p : DataPtr) : DataPtr := ⟨(p.val + 1) % Config.tapeLen, Nat.mod_lt _ (by decide)⟩

/-- R111: `(DP - 1 + 65535) mod 65535`. -/
def prevPtr (p : DataPtr) : DataPtr :=
  ⟨(p.val + (Config.tapeLen - 1)) % Config.tapeLen, Nat.mod_lt _ (by decide)⟩

/-- R14: `DP <- p`. -/
def setDp (p : DataPtr) (s : State) : State := { s with dp := p }

/-- R14: `PC <- i`. -/
def setPc (i : Nat) (s : State) : State := { s with pc := i }

/-- R103: `PC <- PC + 1`, applied to the value of `PC` after the instruction's own effect. -/
def advance (s : State) : State := { s with pc := s.pc + 1 }

/-! ## Cell arithmetic -/

/-- R120: `(v + 1) mod 256`. -/
def nextCell (v : CellValue) : CellValue := BitVec.ofNat 8 ((v.toNat + 1) % Config.cellMod)

/-- R121: `(v - 1 + 256) mod 256`. -/
def prevCell (v : CellValue) : CellValue :=
  BitVec.ofNat 8 ((v.toNat + (Config.cellMod - 1)) % Config.cellMod)

/-! ## Output -/

/-- R14: `OutAppend(v)`. -/
def outAppend (v : CellValue) (s : State) : State := { s with out := s.out ++ [v] }

/-! ## The bracket scan

`SCAN` and `LEVEL` (R31) are the arguments of the loops; `none` is the raise of R145. -/

/-- R143, the loop of `ScanForward`, with `left = LEN - SCAN`: `left = 0` is the bounds check
`SCAN >= LEN`, made before the read (R145). -/
def scanForwardLoop (s : State) : (left scan level : Nat) → Option Nat
  | 0, _, _ => none
  | left + 1, scan, level =>
    match instrAt scan s with
    | .jumpIfZero => scanForwardLoop s left (scan + 1) (level + 1)
    | .jumpIfNonZero => if level = 0 then some scan else scanForwardLoop s left (scan + 1) (level - 1)
    | .moveRight | .moveLeft | .increment | .decrement | .output | .input =>
      scanForwardLoop s left (scan + 1) level

/-- R143: `ScanForward(i)`: the index of the matching `]`, or `none` where it raises
`MalformedProgram(Open, i)`. -/
def scanForward (i : Nat) (s : State) : Option Nat := scanForwardLoop s (s.len - (i + 1)) (i + 1) 0

/-- R144, the loop of `ScanBackward`, with `SCAN = beyond - 1`: `beyond = 0` is the bounds check
`SCAN < 0`, made before the decrement (R144) and before the read (R145). -/
def scanBackwardLoop (s : State) : (beyond level : Nat) → Option Nat
  | 0, _ => none
  | scan + 1, level =>
    match instrAt scan s with
    | .jumpIfNonZero => scanBackwardLoop s scan (level + 1)
    | .jumpIfZero => if level = 0 then some scan else scanBackwardLoop s scan (level - 1)
    | .moveRight | .moveLeft | .increment | .decrement | .output | .input =>
      scanBackwardLoop s scan level

/-- R144: `ScanBackward(j)`: the index of the matching `[`, or `none` where it raises
`MalformedProgram(Close, j)`. -/
def scanBackward (j : Nat) (s : State) : Option Nat := scanBackwardLoop s j 0

/-! ## The end of a run, and reset -/

/-- R104: `RS <- HALT` and nothing else. -/
def enterHalt (s : State) : State := { s with rs := .halt }

/-- R164, taking the exception `MalformedProgram(dir, at)`: the fault record is written and
`RS <- FAULT`; `PC`, `DP`, `TAPE`, `OUT`, `IMEM`, `LEN` and `LDOVF` are unchanged. There is no
handler, no mode and no return (R167): the only way out is `resetEvent`. -/
def raiseMalformed (dir : FaultDir) (at_ : Nat) (s : State) : State :=
  { s with faultInfo := { cause := .malformedProgram, dir := dir, atIndex := at_ }, rs := .fault }

/-- R190, the event `Reset`: every piece of state to its reset value, but the words of instruction
memory, which "are not cleared and not visible". The host's later moves are not the core's state. -/
def resetEvent (s : State) : State := { State.reset with imem := s.imem, hostMoves := s.hostMoves }

end Sys2Proof.Machine
end

