-- ==== Sys2Proof/Machine/Operands.lean ====
section
/-!
DEFINITION. The one addressing mode, data-pointer indirect (spec/20_memory.md R53): the operand of
every instruction that touches the tape is the cell at `DP`, with no offset and no side effect.
-/

namespace Sys2Proof.Machine

/-- R53: `MemRead(DP, 1)`, the current cell. -/
def currentCell (s : State) : CellValue := memRead s.dp s

/-- R53: `MemWrite(DP, 1, v)`. -/
def setCurrentCell (v : CellValue) (s : State) : State := memWrite s.dp v s

end Sys2Proof.Machine
end

