-- ==== Sys2Proof/Machine/CellArith.lean ====
section
/-!
DEFINITION. `Increment` and `Decrement` (spec/43_cell_arith.md), the only writers of the tape.
-/

namespace Sys2Proof.Machine

/-- R120. -/
def execIncrement (s : State) : Host.Outcome State Fault Refusal :=
  .next (advance (setCurrentCell (nextCell (currentCell s)) s))

/-- R121. -/
def execDecrement (s : State) : Host.Outcome State Fault Refusal :=
  .next (advance (setCurrentCell (prevCell (currentCell s)) s))

end Sys2Proof.Machine
end

