-- ==== Sys2Proof/Machine/InputOutput.lean ====
section
/-!
DEFINITION. `Output` and `Input` (spec/44_io.md).
-/

namespace Sys2Proof.Machine

/-- R130: the element appended is the cell value itself (R131). -/
def execOutput (s : State) : Host.Outcome State Fault Refusal :=
  .next (advance (outAppend (currentCell s) s))

/-- R132, R73: a no-op that must not trap; there is no input port to read. -/
def execInput (s : State) : Host.Outcome State Fault Refusal :=
  .next (advance s)

end Sys2Proof.Machine
end

