-- ==== Sys2Proof/Machine/Flags.lean ====
section
/-!
DEFINITION. The core has no status flags and no condition codes (spec/10_state.md R23): the one
condition is computed when a bracket executes. The control and status registers (R29, R30) as the
words the host sees.
-/

namespace Sys2Proof.Machine

/-- R23: the condition of both brackets, `MemRead(DP, 1) == 0`, read when the bracket executes. -/
def cellIsZero (s : State) : Bool := currentCell s == 0#8

/-- R29, R8 (`RS_W = 2`): the code of `RS`. -/
def RunState.code (r : RunState) : BitVec 2 :=
  match r with
  | .load => 0b00#2
  | .run => 0b01#2
  | .halt => 0b10#2
  | .fault => 0b11#2

/-- R30: the code of `CAUSE`. -/
def FaultCause.code (c : FaultCause) : BitVec 2 :=
  match c with
  | .none => 0#2
  | .malformedProgram => 1#2

/-- R30: the code of `DIR`. -/
def FaultDir.code (d : FaultDir) : BitVec 1 :=
  match d with
  | .opening => 0#1
  | .closing => 1#1

/-- R29: `STATUS`, `LDOVF` in bit 2 and `RS` in bits 1:0. -/
def State.statusWord (s : State) : BitVec 3 := BitVec.ofBool s.ldovf ++ s.rs.code

/-- R30: `FAULTINFO` as a number: `AT` from bit 3 up, `DIR` in bit 2, `CAUSE` in bits 1:0. -/
def FaultInfo.word (f : FaultInfo) : Nat :=
  f.atIndex * 8 + f.dir.code.toNat * 4 + f.cause.code.toNat

/-- R24, R8 (`DP_W = 16`): the data pointer register. -/
def State.dpWord (s : State) : BitVec 16 := BitVec.ofNat 16 s.dp.val

end Sys2Proof.Machine
end

