-- ==== Sys2Proof/Machine/LoopJumps.lean ====
section
/-!
DEFINITION. `JumpIfZero` and `JumpIfNonZero` (spec/45_loop_jumps.md). A bracket that falls through
makes no scan and raises nothing (R148, log entry 10).
-/

namespace Sys2Proof.Machine

/-- R140: `PC <- ScanForward(PC)` where the cell is 0, then `PC <- PC + 1`; a scan that leaves the
program takes the exception instead (R164). -/
def execJumpIfZero (s : State) : Host.Outcome State Fault Refusal :=
  if cellIsZero s then
    match scanForward s.pc s with
    | some j => .next (advance (setPc j s))
    | none => .next (raiseMalformed .opening s.pc s)
  else .next (advance s)

/-- R141: `PC <- ScanBackward(PC)` where the cell is not 0, then `PC <- PC + 1`; a scan that leaves
the program takes the exception instead (R164). -/
def execJumpIfNonZero (s : State) : Host.Outcome State Fault Refusal :=
  if cellIsZero s then .next (advance s)
  else
    match scanBackward s.pc s with
    | some i => .next (advance (setPc i s))
    | none => .next (raiseMalformed .closing s.pc s)

end Sys2Proof.Machine
end

