-- ==== Sys2Proof/Machine/PointerMoves.lean ====
section
/-!
DEFINITION. `MoveRight` and `MoveLeft` (spec/42_pointer_moves.md).
-/

namespace Sys2Proof.Machine

/-- R110. -/
def execMoveRight (s : State) : Host.Outcome State Fault Refusal :=
  .next (advance (setDp (nextPtr s.dp) s))

/-- R111. -/
def execMoveLeft (s : State) : Host.Outcome State Fault Refusal :=
  .next (advance (setDp (prevPtr s.dp) s))

end Sys2Proof.Machine
end

