-- ==== Sys2Proof/Machine/Dispatch.lean ====
section
/-!
DEFINITION. The dispatch (spec/41_fetch_dispatch.md R102): one arm per instruction, no default arm.
-/

namespace Sys2Proof.Machine

def exec (i : Instr) (s : State) : Host.Outcome State Fault Refusal :=
  match i with
  | .moveRight => Sys2Proof.Machine.execMoveRight s
  | .moveLeft => Sys2Proof.Machine.execMoveLeft s
  | .increment => Sys2Proof.Machine.execIncrement s
  | .decrement => Sys2Proof.Machine.execDecrement s
  | .output => Sys2Proof.Machine.execOutput s
  | .input => Sys2Proof.Machine.execInput s
  | .jumpIfZero => Sys2Proof.Machine.execJumpIfZero s
  | .jumpIfNonZero => Sys2Proof.Machine.execJumpIfNonZero s

end Sys2Proof.Machine
end

