-- ==== Sys2Proof/Machine/Fetch.lean ====
section
/-!
DEFINITION. What the core's `Step` does at a state: the halt test, then the fetch
(spec/41_fetch_dispatch.md R100, R101, R104), or no step at all outside `RUN` (R40).
-/

namespace Sys2Proof.Machine

/-- What a `Step` comes to. -/
inductive Action where
  /-- `PC = LEN`: the run ends normally (R104). -/
  | halt
  /-- The instruction fetched at `PC < LEN` runs (R101, R102). -/
  | execute (i : Instr)
  /-- No step is enabled. -/
  | stop (f : Fault)
deriving DecidableEq, Repr

/-- R100: `Step` is enabled exactly when `RS = RUN`; the test `PC == LEN` stands before the fetch
(D23). `PC > LEN` is outside the invariant R15 (log entry 5). -/
def nextAction (s : State) : Action :=
  match s.rs with
  | .load => .stop .noStepInLoad
  | .halt => .stop .noStepInHalt
  | .fault => .stop (.malformedProgram s.faultInfo.dir s.faultInfo.atIndex)
  | .run =>
    if s.pc = s.len then .halt
    else if s.pc < s.len then .execute (instrAt s.pc s)
    else .stop .pcBeyondProgram

/-- The state in which the core's next `Step` fetches and runs the word `w`: `w` stands at `PC`, the
program reaches past it, `RS = RUN`, and the host listens. Log entry 12. -/
def placeAtPc (w : Opcode) (s : State) : State :=
  { imemWrite s.pc w s with len := max s.len (s.pc + 1), rs := .run, hostMoves := [] }

end Sys2Proof.Machine
end

