-- ==== Sys2Proof/Machine/Loader.lean ====
section
/-!
DEFINITION. The load front end (spec/40_loader.md): the event `LoadChar`.
-/

namespace Sys2Proof.Machine

/-- R93: `IMEM[LEN] <- k; LEN <- LEN + 1`. -/
def appendOpcode (k : Opcode) (s : State) : State := { imemWrite s.len k s with len := s.len + 1 }

/-- R95: `LDOVF <- 1`. -/
def setLdovf (s : State) : State := { s with ldovf := true }

/-- R91, `LoadChar(c)`, for an instruction memory of the given depth. -/
def loadCharIn (depth : Option Nat) (c : CharCode) (s : State) : State :=
  match s.rs with
  | .load =>
    match symbolToOpcode c with
    | none => s
    | some k => if depth = some s.len then setLdovf s else appendOpcode k s
  | .run | .halt | .fault => s

/-- R91: `LoadChar(c)` on this core. -/
def loadChar (c : CharCode) (s : State) : State := loadCharIn Config.imemDepth c s

/-- R194: `LoadChar` for every code of a source text, first character first. -/
def loadChars (t : List CharCode) (s : State) : State := t.foldl (fun r c => loadChar c r) s

end Sys2Proof.Machine
end

