-- ==== Sys2Proof/Machine/HostEvents.lean ====
section
/-!
DEFINITION. The host's events (spec/10_state.md R40, spec/70_reset_and_hazards.md R190, R196), and
whose turn it is: the host's next move where one is left, else the core's own step.
-/

namespace Sys2Proof.Machine

/-- R40, the event `Start`: `RS <- RUN` in `LOAD` with `LDOVF = 0`, ignored otherwise. -/
def startEvent (s : State) : State :=
  match s.rs with
  | .load => if s.ldovf then s else { s with rs := .run }
  | .run | .halt | .fault => s

/-- R194, steps (1) to (3): `Reset`, then `LoadChar` of every code of the text, then `Start`. -/
def boot (t : List CharCode) (s : State) : State := startEvent (loadChars t (resetEvent s))

/-- One turn: either the host's event has been applied, or the core takes its `Step`. -/
inductive Turn where
  /-- The host moved (or listened while the core had no step); the turn is over. -/
  | host (s : State)
  /-- The core takes its `Step` at this state. -/
  | core (s : State)
deriving DecidableEq, Repr

/-- The host's next move is taken off the list. -/
def dropHostMove (s : State) : State := { s with hostMoves := s.hostMoves.tail }

/-- R40: events are taken one at a time. A host that listens leaves the turn to the core, whose
`Step` is enabled exactly in `RUN`; elsewhere nothing happens and all state is retained (R180).
With no move left it is the core's `Step` in every run state (log entries 3 and 4). -/
def turn (s : State) : Turn :=
  match s.hostMoves with
  | [] => .core s
  | .reset :: _ => .host (resetEvent (dropHostMove s))
  | .loadChar c :: _ => .host (loadChar c (dropHostMove s))
  | .start :: _ => .host (startEvent (dropHostMove s))
  | .listen :: _ =>
    match s.rs with
    | .run => .core (dropHostMove s)
    | .load | .halt | .fault => .host (dropHostMove s)

end Sys2Proof.Machine
end

