-- ==== Sys2Proof/Machine/Step.lean ====
section
/-!
DEFINITION. One step of the machine: the host's next move, or the core's `Step`
(spec/10_state.md R40, spec/41_fetch_dispatch.md R100).
-/

namespace Sys2Proof.Machine

/-- R100: the event `Step`. -/
def coreStep (s : State) : Host.Outcome State Fault Refusal :=
  match nextAction s with
  | .halt => .next (enterHalt s)
  | .execute i => exec i s
  | .stop f => .fault f

/-- R40: one event. -/
def step (s : State) : Host.Outcome State Fault Refusal :=
  match turn s with
  | .host t => .next t
  | .core t => coreStep t

/-- `s` with the opcode-table word `w` placed where the next step fetches, so that this step runs
it. Log entry 12. -/
def State.withFetchWord (s : State) (_nbits w : Nat) : State :=
  placeAtPc (BitVec.ofNat 3 w) s

end Sys2Proof.Machine
end

