-- ==== Sys2Proof/Machine/Ports.lean ====
section
/-!
DEFINITION. The ports (spec/10_state.md R35, R36) as views: the input pins sampled at one clock edge
are host moves, and the output pins are functions of the state and of the step just taken.
-/

namespace Sys2Proof.Machine

/-- R35: the input ports but the clock, on which no rule depends (R202). -/
structure InPorts where
  rst : Bool
  ldValid : Bool
  ldChar : CharCode
  start : Bool
deriving DecidableEq, Repr

/-- R40: inputs sampled in one clock cycle are ordered reset first, then `ld_valid`, then `start`,
then the core's own step. -/
def InPorts.moves (p : InPorts) : List HostMove :=
  (if p.rst then [.reset] else []) ++ (if p.ldValid then [.loadChar p.ldChar] else [])
    ++ (if p.start then [.start] else []) ++ [.listen]

/-- The state with one more sampled clock edge to come. -/
def State.sample (p : InPorts) (s : State) : State := { s with hostMoves := s.hostMoves ++ p.moves }

/-- R36: the output ports. `outStrobe` is `out_valid` with `out_char`: `none` when `out_valid` is low. -/
structure OutPorts where
  outStrobe : Option CellValue
  rs : BitVec 2
  ldovf : Bool
  faultCause : BitVec 2
  faultDir : BitVec 1
  faultAt : Nat
deriving DecidableEq, Repr

/-- R36, R28: the strobe of the step from `before` to `after`: the element that it appended to `OUT`. -/
def outStrobe (before after : State) : Option CellValue := (after.out.drop before.out.length).head?

/-- R36: the output ports after the step from `before` to `after`. -/
def outPorts (before after : State) : OutPorts where
  outStrobe := outStrobe before after
  rs := after.rs.code
  ldovf := after.ldovf
  faultCause := after.faultInfo.cause.code
  faultDir := after.faultInfo.dir.code
  faultAt := after.faultInfo.atIndex

end Sys2Proof.Machine
end

