-- ==== Sys2Proof/Safety.lean ====
section
/-!
DEFINITION. The terms in which claims about the machine are made: the invariant of State, a run and
its end, what a bracket's match is, and when two states look alike to a program or to the host.
-/

namespace Sys2Proof.Machine

/-! ## The invariant -/

/-- R15 and what the rules say between the registers: every state from `Reset` on has it. -/
structure WF (s : State) : Prop where
  /-- The tape is in canonical form. -/
  tape_canonical : Memory.wf s.tape = true
  /-- R15, R21: `PC <= LEN`. -/
  pc_le_len : s.pc ≤ s.len
  /-- R93: every word of the program was loaded. -/
  program_loaded : s.len ≤ s.imem.length
  /-- R30: a cause is recorded only in `FAULT`. -/
  no_record_outside_fault : s.rs ≠ .fault → s.faultInfo = FaultInfo.zero
  /-- R30, R164: in `FAULT` the record names the bracket at `PC` that raised the exception. -/
  fault_recorded : s.rs = .fault →
    s.faultInfo.cause = .malformedProgram ∧ s.faultInfo.atIndex = s.pc ∧ s.pc < s.len
  /-- R161: `DIR = 0` means the faulting opcode is 6, `DIR = 1` means 7. -/
  fault_bracket : s.rs = .fault →
    instrAt s.pc s = match s.faultInfo.dir with
      | .opening => .jumpIfZero
      | .closing => .jumpIfNonZero
  /-- R97: loading does not touch the engine's state. -/
  load_is_fresh : s.rs = .load → s.pc = 0 ∧ s.dp.val = 0 ∧ s.tape = [] ∧ s.out = []
  /-- R95: a truncated program is never executed. -/
  started_untruncated : s.rs ≠ .load → s.ldovf = false
  /-- R104: `HALT` is entered at `PC = LEN`. -/
  halted_at_end : s.rs = .halt → s.pc = s.len

/-- R9, R22, R95: the program fits instruction memory, and `LDOVF` is set only when memory is full. -/
structure WithinDepth (s : State) : Prop where
  len_fits : Config.Fits Config.imemDepth s.len
  imem_fits : Config.Fits Config.imemDepth s.imem.length
  ldovf_means_full : s.ldovf = true → Config.imemDepth = some s.len

/-! ## Runs -/

/-- `k` executions of one instruction. -/
def execTimes : Nat → Instr → State → Host.Outcome State Fault Refusal
  | 0, _, s => .next s
  | k + 1, i, s =>
    match exec i s with
    | .next t => execTimes k i t
    | .fault f => .fault f
    | .refused r => .refused r

/-- R105: `e` is the end of the run from `s`: the first state with `RS = HALT` or `RS = FAULT` that
the core's steps reach. -/
inductive Ends : State → State → Prop where
  | here {s : State} : s.rs = .halt ∨ s.rs = .fault → Ends s s
  | after {s t e : State} : s.rs = .run → coreStep s = .next t → Ends t e → Ends s e

/-- R150: `Balanced(P)` of the loaded program. -/
def BalancedProgram (s : State) : Prop := balanced ((program s).map decode) = true

/-! ## Bracket matching -/

/-- How many words of `p` decode to `i`. -/
def countInstr (i : Instr) (p : List Opcode) : Nat := p.countP (fun w => decode w == i)

/-- `IMEM[a .. b-1]`, cut off at `LEN`. -/
def imemSegment (a b : Nat) (s : State) : List Opcode := ((program s).drop a).take (b - a)

/-- R147: `j` is the structural match of a `[` at `i`: between them stand equally many `[` and `]`,
and every prefix holds at least as many `[` as `]`. -/
structure IsForwardMatch (s : State) (i j : Nat) : Prop where
  after_bracket : i < j
  in_program : j < s.len
  is_closing : instrAt j s = .jumpIfNonZero
  equally_many : countInstr .jumpIfZero (imemSegment (i + 1) j s) =
    countInstr .jumpIfNonZero (imemSegment (i + 1) j s)
  prefix_open : ∀ n, countInstr .jumpIfNonZero ((imemSegment (i + 1) j s).take n) ≤
    countInstr .jumpIfZero ((imemSegment (i + 1) j s).take n)

/-- R147: `i` is the structural match of a `]` at `j`: read right to left, no suffix between them
holds more `[` than `]`, and there are equally many in all. -/
structure IsBackwardMatch (s : State) (j i : Nat) : Prop where
  before_bracket : i < j
  is_opening : instrAt i s = .jumpIfZero
  equally_many : countInstr .jumpIfZero (imemSegment (i + 1) j s) =
    countInstr .jumpIfNonZero (imemSegment (i + 1) j s)
  suffix_closed : ∀ n, countInstr .jumpIfZero ((imemSegment (i + 1) j s).drop n) ≤
    countInstr .jumpIfNonZero ((imemSegment (i + 1) j s).drop n)

/-- R31, R143: the values of (`SCAN`, `LEVEL`) each time the loop of the forward scan begins, the
pass that ends in the bounds check included. -/
def forwardHeads (s : State) : (left scan level : Nat) → List (Nat × Nat)
  | 0, scan, level => [(scan, level)]
  | left + 1, scan, level =>
    (scan, level) :: match instrAt scan s with
      | .jumpIfZero => forwardHeads s left (scan + 1) (level + 1)
      | .jumpIfNonZero => if level = 0 then [] else forwardHeads s left (scan + 1) (level - 1)
      | .moveRight | .moveLeft | .increment | .decrement | .output | .input =>
        forwardHeads s left (scan + 1) level

/-- R31, R144: the values of (`SCAN + 1`, `LEVEL`) each time the loop of the backward scan begins. -/
def backwardHeads (s : State) : (beyond level : Nat) → List (Nat × Nat)
  | 0, level => [(0, level)]
  | scan + 1, level =>
    (scan + 1, level) :: match instrAt scan s with
      | .jumpIfNonZero => backwardHeads s scan (level + 1)
      | .jumpIfZero => if level = 0 then [] else backwardHeads s scan (level - 1)
      | .moveRight | .moveLeft | .increment | .decrement | .output | .input =>
        backwardHeads s scan level

/-- The heads of `ScanForward(i)`. -/
def forwardScanHeads (i : Nat) (s : State) : List (Nat × Nat) :=
  forwardHeads s (s.len - (i + 1)) (i + 1) 0

/-- The heads of `ScanBackward(j)`. -/
def backwardScanHeads (j : Nat) (s : State) : List (Nat × Nat) := backwardHeads s j 0

/-- R147, R152: the `IMEM` reads of `ScanForward(i)`: the passes that get by the bounds check. -/
def forwardReads (i : Nat) (s : State) : Nat :=
  (forwardScanHeads i s).countP (fun h => decide (h.1 < s.len))

/-- R147, R152: the `IMEM` reads of `ScanBackward(j)`. -/
def backwardReads (j : Nat) (s : State) : Nat :=
  (backwardScanHeads j s).countP (fun h => decide (0 < h.1))

/-- `ScanForward` from the middle: the loop at (`SCAN`, `LEVEL`) = (`scan`, `level`). -/
def scanForwardFrom (scan level : Nat) (s : State) : Option Nat :=
  scanForwardLoop s (s.len - scan) scan level

/-! ## States that look alike -/

/-- R27: `s` and `t` differ at most in words of instruction memory at index `LEN` and above. -/
structure SameVisible (s t : State) : Prop where
  rest_equal : { t with imem := s.imem } = s
  loaded_left : s.len ≤ s.imem.length
  loaded_right : s.len ≤ t.imem.length
  program_equal : program s = program t

/-- D1: `t` is `s` with the data pointer and the whole circular tape turned `k` cells to the right. -/
structure Rotated (k : DataPtr) (s t : State) : Prop where
  rest_equal : { t with dp := s.dp, tape := s.tape } = s
  left_canonical : Memory.wf s.tape = true
  right_canonical : Memory.wf t.tape = true
  pointer_turned : t.dp = s.dp + k
  cells_turned : ∀ a : DataPtr, memRead (a + k) t = memRead a s

end Sys2Proof.Machine
end

