-- ==== Sys2Proof/Certificates/Slice0/Obligations.lean ====
section
/-!
DEFINITION. The statements for the provers, from the numbered rules of spec/. OBLIGATIONS.json lists
them with what each one says in words. `coreStep` is the event `Step` of R100; `step` is one event of
the machine, the host's next move or the core's `Step`.
-/

open Sys2Proof Sys2Proof.Machine

/-! ## Encoding -/

/-- R71: the opcode map, every row written out: opcode, mnemonic, source symbol. The numeric codes of
the symbols are R75's (ASCII, the spec's general knowledge G1). -/
def Obligations.OpcodeMapAsTabulated : Prop :=
  (decode 0b000#3 = .moveRight ∧ encode .moveRight = 0b000#3 ∧ sourceSymbol .moveRight = 62#8) ∧
  (decode 0b001#3 = .moveLeft ∧ encode .moveLeft = 0b001#3 ∧ sourceSymbol .moveLeft = 60#8) ∧
  (decode 0b010#3 = .increment ∧ encode .increment = 0b010#3 ∧ sourceSymbol .increment = 43#8) ∧
  (decode 0b011#3 = .decrement ∧ encode .decrement = 0b011#3 ∧ sourceSymbol .decrement = 45#8) ∧
  (decode 0b100#3 = .output ∧ encode .output = 0b100#3 ∧ sourceSymbol .output = 46#8) ∧
  (decode 0b101#3 = .input ∧ encode .input = 0b101#3 ∧ sourceSymbol .input = 44#8) ∧
  (decode 0b110#3 = .jumpIfZero ∧ encode .jumpIfZero = 0b110#3 ∧ sourceSymbol .jumpIfZero = 91#8) ∧
  (decode 0b111#3 = .jumpIfNonZero ∧ encode .jumpIfNonZero = 0b111#3 ∧
    sourceSymbol .jumpIfNonZero = 93#8)

/-- R73: decoding is total and each word is one instruction's; no word stops the core as illegal,
whatever the state; and `Input` runs as a no-op. -/
def Obligations.EveryWordDecodesAndRuns : Prop :=
  (∀ w, ∃ i, decode w = i ∧ encode i = w ∧ ∀ i', encode i' = w → i' = i) ∧
  (∀ i, decode (encode i) = i) ∧
  (∀ w s, ∃ t, exec (decode w) s = .next t) ∧
  (∀ s : State, exec .input s = .next { s with pc := s.pc + 1 })

/-- R76, R94: every code but the eight symbols is a comment, which changes no state. -/
def Obligations.CommentCodesAreDiscarded : Prop :=
  (∀ c : CharCode, symbolToOpcode c = none ↔ c ∉ [62#8, 60#8, 43#8, 45#8, 46#8, 44#8, 91#8, 93#8]) ∧
  ∀ (c : CharCode) (s : State), symbolToOpcode c = none → loadChar c s = s

/-- 30_encoding.md section 2: printing a program and loading the text gives the program back; the
other round trip loses exactly the comments. -/
def Obligations.PrintedProgramLoadsBack : Prop :=
  (∀ p, loadText (printText p) = p) ∧
  ∀ t, printText (loadText t) = t.filter (fun c => (symbolToOpcode c).isSome)

/-! ## The load front end -/

/-- R91, the pseudocode of `LoadChar`, for an instruction memory of any depth; and this core's
`LoadChar` is that one at its own depth. -/
def Obligations.LoadCharFollowsItsPseudocode : Prop :=
  ∀ (depth : Option Nat) (c : CharCode) (s : State),
    (s.rs ≠ .load → loadCharIn depth c s = s) ∧
    (s.rs = .load → symbolToOpcode c = none → loadCharIn depth c s = s) ∧
    (∀ k, s.rs = .load → symbolToOpcode c = some k → depth = some s.len →
      loadCharIn depth c s = { s with ldovf := true }) ∧
    (∀ k, s.rs = .load → symbolToOpcode c = some k → depth ≠ some s.len →
      ∃ t, loadCharIn depth c s = t ∧ t = { s with imem := t.imem, len := s.len + 1 } ∧
        ifetch s.len t = k ∧ ∀ i, i ≠ s.len → ifetch i t = ifetch i s) ∧
    loadChar c s = loadCharIn Config.imemDepth c s ∧
    symbolToOpcode 0x3E#8 = some 0#3 ∧ symbolToOpcode 0x3C#8 = some 1#3 ∧
    symbolToOpcode 0x2B#8 = some 2#3 ∧ symbolToOpcode 0x2D#8 = some 3#3 ∧
    symbolToOpcode 0x2E#8 = some 4#3 ∧ symbolToOpcode 0x2C#8 = some 5#3 ∧
    symbolToOpcode 0x5B#8 = some 6#3 ∧ symbolToOpcode 0x5D#8 = some 7#3 ∧
    (c ∉ [0x3E#8, 0x3C#8, 0x2B#8, 0x2D#8, 0x2E#8, 0x2C#8, 0x5B#8, 0x5D#8] → symbolToOpcode c = none)

/-- R95: a symbol that does not fit is not stored and sets `LDOVF`; then `Start` is ignored, so no
truncated program runs; only `Reset` clears the flag. -/
def Obligations.LoadOverflowIsRefused : Prop :=
  (∀ (n : Nat) (c : CharCode) (k : Opcode) (s : State),
    s.rs = .load → symbolToOpcode c = some k → s.len = n →
      loadCharIn (some n) c s = { s with ldovf := true } ∧
      startEvent (loadCharIn (some n) c s) = loadCharIn (some n) c s) ∧
  (∀ s : State, s.ldovf = true → startEvent s = s) ∧
  (∀ s t : State, s.ldovf = true → step s = .next t →
    t.ldovf = true ∨ s.hostMoves.head? = some .reset) ∧
  (∀ s : State, (resetEvent s).ldovf = false)

/-- R40, R90: a `LoadChar` or a `Start` outside `LOAD` changes nothing, so the program is read-only
for the whole of a run. -/
def Obligations.LoadAndStartIgnoredOutsideLoad : Prop :=
  ∀ (c : CharCode) (s : State), s.rs ≠ .load → loadChar c s = s ∧ startEvent s = s

/-- 40_loader.md section 1: a text that fits is loaded as its instruction symbols in order, after the
program loaded so far; nothing but `IMEM` and `LEN` changes. -/
def Obligations.LoaderAppendsTheSymbolsOfTheText : Prop :=
  ∀ (t : List CharCode) (s : State), s.rs = .load → s.len ≤ s.imem.length →
    Config.Fits Config.imemDepth (s.len + (loadText t).length) →
    ∃ r, loadChars t s = r ∧ r = { s with imem := r.imem, len := s.len + (loadText t).length } ∧
      program r = program s ++ loadText t

/-- 41_fetch_dispatch.md section 2: what a text loads as depends on it only through `Load`: two texts
with the same instruction symbols, whatever their comments, leave the same state, also where they
overflow the memory. -/
def Obligations.CommentsNeverMatter : Prop :=
  ∀ t₁ t₂ : List CharCode, loadText t₁ = loadText t₂ → ∀ s, loadChars t₁ s = loadChars t₂ s

/-! ## Reset, boot, and the host -/

/-- R190: `Reset` from any state. -/
def Obligations.ResetSetsEveryRegister : Prop :=
  ∀ s : State, ∃ t, resetEvent s = t ∧
    t.rs = .load ∧ t.ldovf = false ∧
    t.faultInfo = { cause := .none, dir := .opening, atIndex := 0 } ∧ t.faultInfo.word = 0 ∧
    t.len = 0 ∧ program t = [] ∧ t.imem = s.imem ∧ t.pc = 0 ∧ t.dp.val = 0 ∧
    (∀ a : DataPtr, memRead a t = 0#8) ∧ t.out = []

/-- R169, R190: `Reset` wins in every run state, and leaves nothing of what was going on. -/
def Obligations.ResetWinsInEveryRunState : Prop :=
  ∀ (s : State) (later : List HostMove), s.hostMoves = .reset :: later →
    step s = .next { State.reset with imem := s.imem, hostMoves := later }

/-- R40: the four events and what each does. A host that listens leaves the turn to the core, whose
`Step` is enabled in `RUN`; what a listening host sees elsewhere, and that a machine with no move
left stops there, is the model's choice (log entries 3 and 4). -/
def Obligations.EventsAreTakenOneAtATime : Prop :=
  ∀ (s : State) (m : HostMove) (later : List HostMove),
    (s.hostMoves = [] → step s = coreStep s) ∧
    (s.hostMoves = m :: later →
      (m = .reset → step s = .next (resetEvent { s with hostMoves := later })) ∧
      (∀ c, m = .loadChar c → step s = .next (loadChar c { s with hostMoves := later })) ∧
      (m = .start → s.rs = .load → s.ldovf = false →
        step s = .next { s with rs := .run, hostMoves := later }) ∧
      (m = .start → s.rs ≠ .load ∨ s.ldovf = true → step s = .next { s with hostMoves := later }) ∧
      (m = .listen → s.rs = .run → step s = coreStep { s with hostMoves := later }) ∧
      (m = .listen → s.rs ≠ .run → step s = .next { s with hostMoves := later }))

/-- R193: the state at the first `Step` of a run, from whatever state the host reset the core in. -/
def Obligations.BootReachesTheEntryState : Prop :=
  ∀ (t : List CharCode) (s : State), Config.Fits Config.imemDepth (loadText t).length →
    ∃ r, boot t s = r ∧ r.rs = .run ∧ r.pc = 0 ∧ r.dp.val = 0 ∧
      (∀ a : DataPtr, memRead a r = 0#8) ∧ r.out = [] ∧ program r = loadText t ∧
      r.len = (loadText t).length ∧ ∃ r₀, r₀ = loadChars t (resetEvent s) ∧ r = { r₀ with rs := .run }

/-- 10_state.md section 6 and 70_reset_and_hazards.md section 2: nothing of one run survives into
the next: two cores with any past, reset and loaded with one text, look alike. -/
def Obligations.ResetErasesThePast : Prop :=
  ∀ (t : List CharCode) (s₁ s₂ : State), s₁.hostMoves = s₂.hostMoves →
    SameVisible (boot t s₁) (boot t s₂)

/-- R40, R35: inputs sampled in one clock cycle are taken reset first, then the load port, then
`start`, then the core's own step: each event leaves exactly the rest of the edge to come, and the
whole edge comes to the events of its high pins, in this order, and then the core's turn. That the
turn passes with no change where the core has no step is the model's form (log entry 3). -/
def Obligations.SampledInputsAreOrdered : Prop :=
  ∀ (p : InPorts) (s : State), s.hostMoves = [] →
    let startThenListen : List HostMove := if p.start then [.start, .listen] else [.listen]
    let loadThenRest : List HostMove :=
      if p.ldValid then .loadChar p.ldChar :: startThenListen else startThenListen
    (p.rst = true → step (s.sample p) =
      .next { State.reset with imem := s.imem, hostMoves := loadThenRest }) ∧
    (p.rst = false → p.ldValid = true → step (s.sample p) =
      .next (loadChar p.ldChar { s with hostMoves := startThenListen })) ∧
    (p.rst = false → p.ldValid = false → p.start = true → step (s.sample p) =
      .next (startEvent { s with hostMoves := [.listen] })) ∧
    (p.rst = false → p.ldValid = false → p.start = false → step (s.sample p) =
      if s.rs = .run then coreStep s else .next s) ∧
    let afterReset := if p.rst then resetEvent s else s
    let afterLoad := if p.ldValid then loadChar p.ldChar afterReset else afterReset
    let afterStart := if p.start then startEvent afterLoad else afterLoad
    Sys2Proof.core.run (p.rst.toNat + p.ldValid.toNat + p.start.toNat) (s.sample p) =
      .next { afterStart with hostMoves := [.listen] } ∧
    step { afterStart with hostMoves := [.listen] } =
      if afterStart.rs = .run then coreStep afterStart else .next afterStart

/-! ## Invariants -/

/-- The invariants hold right after reset, and the event `Reset` leads back to that very state. -/
def Obligations.ResetStateMeetsTheInvariants : Prop :=
  WF Sys2Proof.core.reset ∧ WithinDepth Sys2Proof.core.reset ∧ resetEvent State.reset = State.reset

/-- R15, and what the rules say between the registers, is kept by every step, the host's moves
included. -/
def Obligations.StepKeepsTheInvariant : Prop :=
  ∀ s t : State, WF s → step s = .next t →
    WF t ∧ t.dp.val < 65535 ∧ t.pc ≤ t.len ∧ ∀ a : DataPtr, (memRead a t).toNat ≤ 255

/-- The program never outgrows instruction memory, and `LDOVF` is set only when it is full. -/
def Obligations.StepKeepsTheProgramWithinDepth : Prop :=
  ∀ s t : State, WF s → WithinDepth s → step s = .next t → WithinDepth t

/-- 10_state.md section 7: the two status registers as words, field by field. -/
def Obligations.StatusWordsHoldTheirFields : Prop :=
  ∀ s : State,
    s.statusWord.extractLsb' 0 2 = (match s.rs with
      | .load => 0b00#2 | .run => 0b01#2 | .halt => 0b10#2 | .fault => 0b11#2) ∧
    s.statusWord.getLsbD 2 = s.ldovf ∧
    s.faultInfo.word % 4 = (match s.faultInfo.cause with | .none => 0 | .malformedProgram => 1) ∧
    s.faultInfo.word / 4 % 2 = (match s.faultInfo.dir with | .opening => 0 | .closing => 1) ∧
    s.faultInfo.word / 8 = s.faultInfo.atIndex ∧
    (WF s → (s.faultInfo.word % 4 ≠ 0 ↔ s.rs = .fault))

/-- 00_scope.md section 4: `PC_W` is the least width that holds `IMEM_DEPTH`, and `PC`, `LEN` and
`AT` fit in it. -/
def Obligations.PcWidthHoldsEveryIndex : Prop :=
  (∀ d, 1 ≤ d → d + 1 ≤ 2 ^ Config.pcBits d ∧ 2 ^ (Config.pcBits d - 1) < d + 1) ∧
  (Config.imemDepth = none ∨ ∃ d, Config.imemDepth = some d ∧ 1 ≤ d) ∧
  ∀ (s : State) (d : Nat), WF s → 1 ≤ d → s.len ≤ d →
    s.pc < 2 ^ Config.pcBits d ∧ s.len < 2 ^ Config.pcBits d ∧
      s.faultInfo.atIndex < 2 ^ Config.pcBits d

/-! ## The step -/

/-- R101, R104: with the core to move in `RUN`, the halt test comes first; below `LEN` the step is
`exec` of the instruction that `IMEM[PC]` decodes to, at that same state; at `LEN` it only halts. -/
def Obligations.StepRunsTheDecodedInstruction : Prop :=
  ∀ s : State, s.rs = .run →
    (s.hostMoves = [] → s.pc < s.len → step s = exec (decode (ifetch s.pc s)) s) ∧
    (s.hostMoves = [] → s.pc = s.len → step s = .next { s with rs := .halt }) ∧
    (∀ later, s.hostMoves = .listen :: later → s.pc < s.len →
      step s = exec (decode (ifetch s.pc s)) { s with hostMoves := later }) ∧
    (∀ later, s.hostMoves = .listen :: later → s.pc = s.len →
      step s = .next { s with rs := .halt, hostMoves := later })

/-- 70_reset_and_hazards.md section 4 (progress): in `RUN` the core's step is always enabled and
completes; in every other run state it has none, and the model stops under a name that says so
(log entry 4). -/
def Obligations.CoreStepsExactlyInRun : Prop :=
  ∀ s : State, WF s →
    ((∃ t, coreStep s = .next t) ↔ s.rs = .run) ∧
    (s.rs = .load → coreStep s = .fault .noStepInLoad) ∧
    (s.rs = .halt → coreStep s = .fault .noStepInHalt) ∧
    (s.rs = .fault → coreStep s = .fault (.malformedProgram s.faultInfo.dir s.pc))

/-- R41: the transitions of `RS`, complete. -/
def Obligations.RunStateTransitionsAreComplete : Prop :=
  ∀ s t : State, step s = .next t →
    let move := s.hostMoves.head?
    let coreMoves := move = none ∨ move = some .listen
    let loads := ∃ c, move = some (.loadChar c)
    (move = some .reset ∧ t.rs = .load) ∨
    (s.rs = .load ∧ t.rs = .load ∧
      (loads ∨ move = some .listen ∨ (move = some .start ∧ s.ldovf = true))) ∨
    (s.rs = .load ∧ t.rs = .run ∧ move = some .start ∧ s.ldovf = false) ∨
    (s.rs = .run ∧ t.rs = .run ∧ ((coreMoves ∧ s.pc < s.len) ∨ loads ∨ move = some .start)) ∨
    (s.rs = .run ∧ t.rs = .halt ∧ coreMoves ∧ s.pc = s.len) ∨
    (s.rs = .run ∧ t.rs = .fault ∧ coreMoves ∧ s.pc < s.len ∧
      (instrAt s.pc s = .jumpIfZero ∨ instrAt s.pc s = .jumpIfNonZero)) ∨
    ((s.rs = .halt ∨ s.rs = .fault) ∧ t.rs = s.rs ∧ move ≠ some .reset)

/-- R167: `HALT` and `FAULT` are absorbing: no event but `Reset` changes anything in them, and the
core has no step of its own. -/
def Obligations.EndedRunsAreAbsorbing : Prop :=
  ∀ s : State, s.rs = .halt ∨ s.rs = .fault →
    (∀ t, coreStep s ≠ .next t) ∧
    ∀ t, step s = .next t → s.hostMoves.head? ≠ some .reset →
      t = { s with hostMoves := s.hostMoves.tail }

/-- 10_state.md section 11: what each instruction may touch, for every instruction at once. -/
def Obligations.InstructionsTouchOnlyTheirState : Prop :=
  ∀ (i : Instr) (s t : State), exec i s = .next t →
    t.imem = s.imem ∧ t.len = s.len ∧ t.ldovf = s.ldovf ∧ t.hostMoves = s.hostMoves ∧
    (i ≠ .moveRight → i ≠ .moveLeft → t.dp = s.dp) ∧
    (i ≠ .increment → i ≠ .decrement → t.tape = s.tape) ∧
    (Memory.wf s.tape = true → ∀ a : DataPtr, a ≠ s.dp → memRead a t = memRead a s) ∧
    (i ≠ .output → t.out = s.out) ∧
    (i ≠ .jumpIfZero → i ≠ .jumpIfNonZero →
      t.pc = s.pc + 1 ∧ t.rs = s.rs ∧ t.faultInfo = s.faultInfo)

/-- R62: no instruction writes instruction memory; its only writer is the load front end in `LOAD`. -/
def Obligations.InstructionMemoryIsReadOnlyInARun : Prop :=
  (∀ (i : Instr) (s t : State), exec i s = .next t → t.imem = s.imem ∧ t.len = s.len) ∧
  (∀ s t : State, step s = .next t → (t.imem ≠ s.imem → s.rs = .load ∧
    ∃ c, s.hostMoves.head? = some (.loadChar c))) ∧
  ∀ s t : State, coreStep s = .next t → ∀ i, ifetch i t = ifetch i s

/-- R60: `OUT` grows at its end only, by one element exactly when an `Output` executes, and the
strobe of that step carries the element; a halt or a fault withdraws nothing. -/
def Obligations.OutputIsAppendedInExecutionOrder : Prop :=
  ∀ s t : State, coreStep s = .next t →
    t.out = s.out ++ (outStrobe s t).toList ∧
    outStrobe s t = (if s.pc < s.len ∧ instrAt s.pc s = .output then some (memRead s.dp s) else none)

/-! ## Pointer moves -/

/-- R110: `MoveRight` completes from every state; its effect, what it leaves alone, the 16-bit form
of the wrap, the full circle, and its encoding. -/
def Obligations.MoveRightEffect : Prop :=
  decode 0b000#3 = .moveRight ∧ symbolToOpcode 0x3E#8 = some 0b000#3 ∧
  ∀ s : State, ∃ t, exec .moveRight s = .next t ∧
    t = { s with dp := t.dp, pc := s.pc + 1 } ∧
    t.dp.val = (s.dp.val + 1) % 65535 ∧
    (s.dpWord = 0xFFFE#16 → t.dpWord = 0x0000#16) ∧
    (s.dpWord ≠ 0xFFFE#16 → t.dpWord = s.dpWord + 1#16) ∧
    (∀ a : DataPtr, memRead a t = memRead a s) ∧
    ∃ u, execTimes 65535 .moveRight s = .next u ∧ u.dp = s.dp

/-- R111: `MoveLeft`, likewise. -/
def Obligations.MoveLeftEffect : Prop :=
  decode 0b001#3 = .moveLeft ∧ symbolToOpcode 0x3C#8 = some 0b001#3 ∧
  ∀ s : State, ∃ t, exec .moveLeft s = .next t ∧
    t = { s with dp := t.dp, pc := s.pc + 1 } ∧
    (t.dp.val : Int) = ((s.dp.val : Int) - 1 + 65535) % 65535 ∧
    (s.dpWord = 0x0000#16 → t.dpWord = 0xFFFE#16) ∧
    (s.dpWord ≠ 0x0000#16 → t.dpWord = s.dpWord - 1#16) ∧
    (∀ a : DataPtr, memRead a t = memRead a s)

/-- 42_pointer_moves.md: the two moves undo each other at every pointer position and commute, and
`k` moves add `k` modulo 65535. -/
def Obligations.PointerMovesAreInverse : Prop :=
  ∀ s : State,
    (∀ t u, exec .moveRight s = .next t → exec .moveLeft t = .next u → u = { s with pc := s.pc + 2 }) ∧
    (∀ t u, exec .moveLeft s = .next t → exec .moveRight t = .next u → u = { s with pc := s.pc + 2 }) ∧
    ∀ k, ∃ u, execTimes k .moveRight s = .next u ∧
      u = { s with dp := u.dp, pc := s.pc + k } ∧ u.dp.val = (s.dp.val + k) % 65535

/-! ## Cell arithmetic -/

/-- R120: `Increment` completes from every state with a canonical tape; it stores to the cell at `DP`
and to no other; 256 of them restore the tape; and its encoding. -/
def Obligations.IncrementEffect : Prop :=
  decode 0b010#3 = .increment ∧ symbolToOpcode 0x2B#8 = some 0b010#3 ∧
  ∀ s : State, Memory.wf s.tape = true → ∃ t, exec .increment s = .next t ∧
    t = { s with tape := t.tape, pc := s.pc + 1 } ∧
    (memRead s.dp t).toNat = ((memRead s.dp s).toNat + 1) % 256 ∧
    (∀ a : DataPtr, a ≠ s.dp → memRead a t = memRead a s) ∧
    Memory.wf t.tape = true ∧
    execTimes 256 .increment s = .next { s with pc := s.pc + 256 }

/-- R121: `Decrement`, likewise. -/
def Obligations.DecrementEffect : Prop :=
  decode 0b011#3 = .decrement ∧ symbolToOpcode 0x2D#8 = some 0b011#3 ∧
  ∀ s : State, Memory.wf s.tape = true → ∃ t, exec .decrement s = .next t ∧
    t = { s with tape := t.tape, pc := s.pc + 1 } ∧
    ((memRead s.dp t).toNat : Int) = (((memRead s.dp s).toNat : Int) - 1 + 256) % 256 ∧
    (∀ a : DataPtr, a ≠ s.dp → memRead a t = memRead a s) ∧
    Memory.wf t.tape = true ∧
    execTimes 256 .decrement s = .next { s with pc := s.pc + 256 }

/-- 43_cell_arith.md: `Increment` and `Decrement` undo each other at every cell value, and the whole
state but `PC` is what it was. -/
def Obligations.CellArithmeticIsInverse : Prop :=
  ∀ s : State, Memory.wf s.tape = true →
    (∀ t u, exec .increment s = .next t → exec .decrement t = .next u → u = { s with pc := s.pc + 2 }) ∧
    (∀ t u, exec .decrement s = .next t → exec .increment t = .next u → u = { s with pc := s.pc + 2 })

/-! ## Output and input -/

/-- R130: `Output` completes from every state: it appends the cell value as it is, strobes it, and
changes nothing else. -/
def Obligations.OutputEffect : Prop :=
  decode 0b100#3 = .output ∧ symbolToOpcode 0x2E#8 = some 0b100#3 ∧
  ∀ s : State, ∃ t, exec .output s = .next t ∧
    t = { s with out := s.out ++ [memRead s.dp s], pc := s.pc + 1 } ∧
    outStrobe s t = some (memRead s.dp s) ∧
    (outPorts s t).outStrobe = some (memRead s.dp s) ∧
    ∀ a : DataPtr, memRead a t = memRead a s

/-- R132: `Input` completes from every state and changes `PC` only. -/
def Obligations.InputEffect : Prop :=
  decode 0b101#3 = .input ∧ symbolToOpcode 0x2C#8 = some 0b101#3 ∧
  ∀ s : State, ∃ t, exec .input s = .next t ∧ t = { s with pc := s.pc + 1 } ∧
    outStrobe s t = none ∧ ∀ a : DataPtr, memRead a t = memRead a s

/-! ## Loop jumps -/

/-- R140: `JumpIfZero`: falls through on a non-zero cell; on a zero cell lands past the matching `]`,
or raises `MalformedProgram(Open, PC)` exactly when the scan leaves the program; the empty body and
the last instruction as the rule gives them. -/
def Obligations.JumpIfZeroEffect : Prop :=
  decode 0b110#3 = .jumpIfZero ∧ symbolToOpcode 0x5B#8 = some 0b110#3 ∧
  ∀ s : State,
    (memRead s.dp s ≠ 0#8 → exec .jumpIfZero s = .next { s with pc := s.pc + 1 }) ∧
    (∀ j, memRead s.dp s = 0#8 → scanForward s.pc s = some j →
      exec .jumpIfZero s = .next { s with pc := j + 1 } ∧
        s.pc < j ∧ j < s.len ∧ instrAt j s = .jumpIfNonZero) ∧
    (memRead s.dp s = 0#8 → scanForward s.pc s = none → exec .jumpIfZero s = .next { s with
        rs := .fault
        faultInfo := { cause := .malformedProgram, dir := .opening, atIndex := s.pc } }) ∧
    (memRead s.dp s = 0#8 → s.pc + 1 < s.len → instrAt (s.pc + 1) s = .jumpIfNonZero →
      exec .jumpIfZero s = .next { s with pc := s.pc + 2 }) ∧
    (memRead s.dp s = 0#8 → s.pc + 1 = s.len → exec .jumpIfZero s = .next { s with
        rs := .fault
        faultInfo := { cause := .malformedProgram, dir := .opening, atIndex := s.pc } })

/-- R141: `JumpIfNonZero`: falls through on a zero cell; on a non-zero cell lands past the matching
`[`, or raises `MalformedProgram(Close, PC)` exactly when the scan leaves the program; the empty body
and the first instruction as the rule gives them. -/
def Obligations.JumpIfNonZeroEffect : Prop :=
  decode 0b111#3 = .jumpIfNonZero ∧ symbolToOpcode 0x5D#8 = some 0b111#3 ∧
  ∀ s : State,
    (memRead s.dp s = 0#8 → exec .jumpIfNonZero s = .next { s with pc := s.pc + 1 }) ∧
    (∀ i, memRead s.dp s ≠ 0#8 → scanBackward s.pc s = some i →
      exec .jumpIfNonZero s = .next { s with pc := i + 1 } ∧
        i < s.pc ∧ instrAt i s = .jumpIfZero) ∧
    (memRead s.dp s ≠ 0#8 → scanBackward s.pc s = none → exec .jumpIfNonZero s = .next { s with
        rs := .fault
        faultInfo := { cause := .malformedProgram, dir := .closing, atIndex := s.pc } }) ∧
    (memRead s.dp s ≠ 0#8 → 0 < s.pc → instrAt (s.pc - 1) s = .jumpIfZero →
      exec .jumpIfNonZero s = .next s) ∧
    (memRead s.dp s ≠ 0#8 → s.pc = 0 → exec .jumpIfNonZero s = .next { s with
        rs := .fault
        faultInfo := { cause := .malformedProgram, dir := .closing, atIndex := s.pc } })

/-- R143: `ScanForward`, pass by pass as its pseudocode has it; what it returns; and that it depends
on nothing but instruction memory. -/
def Obligations.ScanForwardFollowsItsPseudocode : Prop :=
  ∀ (s : State) (i : Nat),
    scanForward i s = scanForwardFrom (i + 1) 0 s ∧
    (∀ scan level, s.len ≤ scan → scanForwardFrom scan level s = none) ∧
    (∀ scan level, scan < s.len → instrAt scan s = .jumpIfZero →
      scanForwardFrom scan level s = scanForwardFrom (scan + 1) (level + 1) s) ∧
    (∀ scan, scan < s.len → instrAt scan s = .jumpIfNonZero → scanForwardFrom scan 0 s = some scan) ∧
    (∀ scan level, scan < s.len → instrAt scan s = .jumpIfNonZero →
      scanForwardFrom scan (level + 1) s = scanForwardFrom (scan + 1) level s) ∧
    (∀ scan level, scan < s.len → instrAt scan s ≠ .jumpIfZero → instrAt scan s ≠ .jumpIfNonZero →
      scanForwardFrom scan level s = scanForwardFrom (scan + 1) level s) ∧
    (∀ j, scanForward i s = some j → i < j ∧ j < s.len ∧ instrAt j s = .jumpIfNonZero) ∧
    ∀ t : State, t.imem = s.imem → t.len = s.len → scanForward i t = scanForward i s

/-- R144: `ScanBackward`, likewise; `scanBackwardLoop s b` is the loop with `SCAN = b - 1`. -/
def Obligations.ScanBackwardFollowsItsPseudocode : Prop :=
  ∀ (s : State) (j : Nat),
    scanBackward j s = scanBackwardLoop s j 0 ∧
    (∀ level, scanBackwardLoop s 0 level = none) ∧
    (∀ scan level, instrAt scan s = .jumpIfNonZero →
      scanBackwardLoop s (scan + 1) level = scanBackwardLoop s scan (level + 1)) ∧
    (∀ scan, instrAt scan s = .jumpIfZero → scanBackwardLoop s (scan + 1) 0 = some scan) ∧
    (∀ scan level, instrAt scan s = .jumpIfZero →
      scanBackwardLoop s (scan + 1) (level + 1) = scanBackwardLoop s scan level) ∧
    (∀ scan level, instrAt scan s ≠ .jumpIfZero → instrAt scan s ≠ .jumpIfNonZero →
      scanBackwardLoop s (scan + 1) level = scanBackwardLoop s scan level) ∧
    (∀ i, scanBackward j s = some i → i < j ∧ instrAt i s = .jumpIfZero) ∧
    ∀ t : State, t.imem = s.imem → scanBackward j t = scanBackward j s

/-- 45_loop_jumps.md section 2: the forward scan returns exactly the structural match, the least
such index, and nothing where there is none. -/
def Obligations.ScanForwardFindsTheMatch : Prop :=
  ∀ (s : State) (i : Nat), s.len ≤ s.imem.length →
    (∀ j, scanForward i s = some j ↔ IsForwardMatch s i j) ∧
    (∀ j j', scanForward i s = some j → IsForwardMatch s i j' → j ≤ j') ∧
    (scanForward i s = none ↔ ∀ j, ¬IsForwardMatch s i j)

/-- 45_loop_jumps.md section 2: the backward scan returns exactly the structural match, the greatest
such index, and nothing where there is none. -/
def Obligations.ScanBackwardFindsTheMatch : Prop :=
  ∀ (s : State) (j : Nat), s.len ≤ s.imem.length → j ≤ s.len →
    (∀ i, scanBackward j s = some i ↔ IsBackwardMatch s j i) ∧
    (∀ i i', scanBackward j s = some i → IsBackwardMatch s j i' → i' ≤ i) ∧
    (scanBackward j s = none ↔ ∀ i, ¬IsBackwardMatch s j i)

/-- 45_loop_jumps.md section 2: the two scans are inverse. The rule says it of balanced programs;
between a `[` and a `]` it holds in every program. -/
def Obligations.ScansAreInverse : Prop :=
  ∀ (s : State) (i j : Nat), s.len ≤ s.imem.length → i < s.len → j < s.len →
    instrAt i s = .jumpIfZero → instrAt j s = .jumpIfNonZero →
    (scanForward i s = some j ↔ scanBackward j s = some i)

/-- 45_loop_jumps.md section 2, 70_reset_and_hazards.md section 4: `LEVEL` stays below `LEN`, a
successful scan reads `IMEM` once for each index from the bracket to its match, and no scan reads it
more than `LEN - 1` times. -/
def Obligations.ScansAreBounded : Prop :=
  ∀ (s : State) (i : Nat), i < s.len →
    (∀ h ∈ forwardScanHeads i s, h.2 < s.len) ∧ (∀ h ∈ backwardScanHeads i s, h.2 < s.len) ∧
    (∀ j, scanForward i s = some j → forwardReads i s = j - i) ∧
    (∀ j, scanBackward i s = some j → backwardReads i s = i - j) ∧
    forwardReads i s ≤ s.len - 1 ∧ backwardReads i s ≤ s.len - 1

/-- 45_loop_jumps.md section 3: a balanced program never raises `MalformedProgram`: each step leaves
the core running or halted with the same program, and a run that ends, ends in `HALT`. -/
def Obligations.BalancedProgramsNeverFault : Prop :=
  (∀ s : State, WF s → s.rs = .run → BalancedProgram s →
    ∃ t, coreStep s = .next t ∧ (t.rs = .run ∨ t.rs = .halt) ∧ BalancedProgram t) ∧
  ∀ s e : State, WF s → s.rs = .run → BalancedProgram s → Ends s e → e.rs = .halt

/-- 45_loop_jumps.md section 3: a matched pair is a while loop: the `[` at `i` and the `]` at `j` make
the same test and branch to the same two places, the body when the cell is not 0 and past the `]`
when it is. -/
def Obligations.MatchedPairIsAWhileLoop : Prop :=
  ∀ (s : State) (i j : Nat), s.len ≤ s.imem.length → s.rs = .run → i < s.len →
    instrAt i s = .jumpIfZero → scanForward i s = some j → s.pc = i ∨ s.pc = j →
    coreStep s = .next { s with pc := if memRead s.dp s = 0#8 then j + 1 else i + 1 }

/-- 41_fetch_dispatch.md section 2: the core has no step budget: an empty loop on a non-zero cell is
never left by the machine, whatever number of steps is taken. -/
def Obligations.EmptyLoopIsNeverLeft : Prop :=
  ∀ s : State, s.rs = .run → s.hostMoves = [] → memRead s.dp s ≠ 0#8 → 0 < s.pc →
    s.pc < s.len → instrAt (s.pc - 1) s = .jumpIfZero → instrAt s.pc s = .jumpIfNonZero →
    (∀ k, Sys2Proof.core.run k s = .next s) ∧ ∀ e, ¬Ends s e

/-! ## The exception -/

/-- R164, R165: fault entry writes the fault record and `RS` and changes nothing else, `PC` staying
at the bracket; it happens exactly when a bracket is taken and its scan leaves the program. -/
def Obligations.FaultEntryIsPrecise : Prop :=
  ∀ s t : State, s.rs = .run → coreStep s = .next t →
    (t.rs = .fault ↔ s.pc < s.len ∧
      ((instrAt s.pc s = .jumpIfZero ∧ memRead s.dp s = 0#8 ∧ scanForward s.pc s = none) ∨
       (instrAt s.pc s = .jumpIfNonZero ∧ memRead s.dp s ≠ 0#8 ∧ scanBackward s.pc s = none))) ∧
    (t.rs = .fault → instrAt s.pc s = .jumpIfZero → t = { s with
        rs := .fault
        faultInfo := { cause := .malformedProgram, dir := .opening, atIndex := s.pc } }) ∧
    (t.rs = .fault → instrAt s.pc s = .jumpIfNonZero → t = { s with
        rs := .fault
        faultInfo := { cause := .malformedProgram, dir := .closing, atIndex := s.pc } })

/-- R148: a bracket that falls through raises nothing, matched or not: no scan is made, so the result
does not depend on the program at all. -/
def Obligations.FallThroughNeverFaults : Prop :=
  ∀ s : State, s.rs = .run → s.pc < s.len →
    (instrAt s.pc s = .jumpIfZero → memRead s.dp s ≠ 0#8 →
      coreStep s = .next { s with pc := s.pc + 1 }) ∧
    (instrAt s.pc s = .jumpIfNonZero → memRead s.dp s = 0#8 →
      coreStep s = .next { s with pc := s.pc + 1 })

/-! ## What cannot be seen -/

/-- 10_state.md section 6: words of instruction memory at index `LEN` and above have no effect:
states that differ only there step alike, whichever the event, and stop alike. -/
def Obligations.InvisibleWordsHaveNoEffect : Prop :=
  ∀ s s' : State, SameVisible s s' →
    (∀ t, step s = .next t → ∃ t', step s' = .next t' ∧ SameVisible t t') ∧
    ∀ f, step s = .fault f → step s' = .fault f

/-- 92_eei_decisions.md, D1: where on the circular tape the pointer starts cannot be observed: turned
states step alike, and their runs end alike, with the same `OUT` and the same halt or fault. -/
def Obligations.InitialPointerIsUnobservable : Prop :=
  ∀ (k : DataPtr) (s s' : State), Rotated k s s' →
    (∀ t, coreStep s = .next t → ∃ t', coreStep s' = .next t' ∧ Rotated k t t') ∧
    ∀ e, Ends s e → ∃ e', Ends s' e' ∧ Rotated k e e' ∧ e'.out = e.out ∧ e'.rs = e.rs ∧
      e'.faultInfo = e.faultInfo
end

