-- ==== Sys2Proof/Laws/State.lean ====
section
/-!
SUPPORT. What each named update of State does to each field, one lemma each, so that no proof
unfolds a record update.
-/

namespace Sys2Proof.Machine

variable (s : State)

/-! ## memWrite -/

@[simp] theorem memWrite_imem (a : DataPtr) (v : CellValue) : (memWrite a v s).imem = s.imem := rfl
@[simp] theorem memWrite_len (a : DataPtr) (v : CellValue) : (memWrite a v s).len = s.len := rfl
@[simp] theorem memWrite_tape (a : DataPtr) (v : CellValue) : (memWrite a v s).tape = Memory.write s.tape a.val v := rfl
@[simp] theorem memWrite_dp (a : DataPtr) (v : CellValue) : (memWrite a v s).dp = s.dp := rfl
@[simp] theorem memWrite_pc (a : DataPtr) (v : CellValue) : (memWrite a v s).pc = s.pc := rfl
@[simp] theorem memWrite_out (a : DataPtr) (v : CellValue) : (memWrite a v s).out = s.out := rfl
@[simp] theorem memWrite_rs (a : DataPtr) (v : CellValue) : (memWrite a v s).rs = s.rs := rfl
@[simp] theorem memWrite_ldovf (a : DataPtr) (v : CellValue) : (memWrite a v s).ldovf = s.ldovf := rfl
@[simp] theorem memWrite_faultInfo (a : DataPtr) (v : CellValue) : (memWrite a v s).faultInfo = s.faultInfo := rfl
@[simp] theorem memWrite_hostMoves (a : DataPtr) (v : CellValue) : (memWrite a v s).hostMoves = s.hostMoves := rfl

/-! ## setCurrentCell -/

@[simp] theorem setCurrentCell_imem (v : CellValue) : (setCurrentCell v s).imem = s.imem := rfl
@[simp] theorem setCurrentCell_len (v : CellValue) : (setCurrentCell v s).len = s.len := rfl
@[simp] theorem setCurrentCell_tape (v : CellValue) : (setCurrentCell v s).tape = Memory.write s.tape s.dp.val v := rfl
@[simp] theorem setCurrentCell_dp (v : CellValue) : (setCurrentCell v s).dp = s.dp := rfl
@[simp] theorem setCurrentCell_pc (v : CellValue) : (setCurrentCell v s).pc = s.pc := rfl
@[simp] theorem setCurrentCell_out (v : CellValue) : (setCurrentCell v s).out = s.out := rfl
@[simp] theorem setCurrentCell_rs (v : CellValue) : (setCurrentCell v s).rs = s.rs := rfl
@[simp] theorem setCurrentCell_ldovf (v : CellValue) : (setCurrentCell v s).ldovf = s.ldovf := rfl
@[simp] theorem setCurrentCell_faultInfo (v : CellValue) : (setCurrentCell v s).faultInfo = s.faultInfo := rfl
@[simp] theorem setCurrentCell_hostMoves (v : CellValue) : (setCurrentCell v s).hostMoves = s.hostMoves := rfl

/-! ## imemWrite -/

@[simp] theorem imemWrite_imem (i : Nat) (w : Opcode) : (imemWrite i w s).imem = Imem.writeFrom 0 s.imem i w := rfl
@[simp] theorem imemWrite_len (i : Nat) (w : Opcode) : (imemWrite i w s).len = s.len := rfl
@[simp] theorem imemWrite_tape (i : Nat) (w : Opcode) : (imemWrite i w s).tape = s.tape := rfl
@[simp] theorem imemWrite_dp (i : Nat) (w : Opcode) : (imemWrite i w s).dp = s.dp := rfl
@[simp] theorem imemWrite_pc (i : Nat) (w : Opcode) : (imemWrite i w s).pc = s.pc := rfl
@[simp] theorem imemWrite_out (i : Nat) (w : Opcode) : (imemWrite i w s).out = s.out := rfl
@[simp] theorem imemWrite_rs (i : Nat) (w : Opcode) : (imemWrite i w s).rs = s.rs := rfl
@[simp] theorem imemWrite_ldovf (i : Nat) (w : Opcode) : (imemWrite i w s).ldovf = s.ldovf := rfl
@[simp] theorem imemWrite_faultInfo (i : Nat) (w : Opcode) : (imemWrite i w s).faultInfo = s.faultInfo := rfl
@[simp] theorem imemWrite_hostMoves (i : Nat) (w : Opcode) : (imemWrite i w s).hostMoves = s.hostMoves := rfl

/-! ## setDp -/

@[simp] theorem setDp_imem (p : DataPtr) : (setDp p s).imem = s.imem := rfl
@[simp] theorem setDp_len (p : DataPtr) : (setDp p s).len = s.len := rfl
@[simp] theorem setDp_tape (p : DataPtr) : (setDp p s).tape = s.tape := rfl
@[simp] theorem setDp_dp (p : DataPtr) : (setDp p s).dp = p := rfl
@[simp] theorem setDp_pc (p : DataPtr) : (setDp p s).pc = s.pc := rfl
@[simp] theorem setDp_out (p : DataPtr) : (setDp p s).out = s.out := rfl
@[simp] theorem setDp_rs (p : DataPtr) : (setDp p s).rs = s.rs := rfl
@[simp] theorem setDp_ldovf (p : DataPtr) : (setDp p s).ldovf = s.ldovf := rfl
@[simp] theorem setDp_faultInfo (p : DataPtr) : (setDp p s).faultInfo = s.faultInfo := rfl
@[simp] theorem setDp_hostMoves (p : DataPtr) : (setDp p s).hostMoves = s.hostMoves := rfl

/-! ## setPc -/

@[simp] theorem setPc_imem (i : Nat) : (setPc i s).imem = s.imem := rfl
@[simp] theorem setPc_len (i : Nat) : (setPc i s).len = s.len := rfl
@[simp] theorem setPc_tape (i : Nat) : (setPc i s).tape = s.tape := rfl
@[simp] theorem setPc_dp (i : Nat) : (setPc i s).dp = s.dp := rfl
@[simp] theorem setPc_pc (i : Nat) : (setPc i s).pc = i := rfl
@[simp] theorem setPc_out (i : Nat) : (setPc i s).out = s.out := rfl
@[simp] theorem setPc_rs (i : Nat) : (setPc i s).rs = s.rs := rfl
@[simp] theorem setPc_ldovf (i : Nat) : (setPc i s).ldovf = s.ldovf := rfl
@[simp] theorem setPc_faultInfo (i : Nat) : (setPc i s).faultInfo = s.faultInfo := rfl
@[simp] theorem setPc_hostMoves (i : Nat) : (setPc i s).hostMoves = s.hostMoves := rfl

/-! ## advance -/

@[simp] theorem advance_imem : (advance s).imem = s.imem := rfl
@[simp] theorem advance_len : (advance s).len = s.len := rfl
@[simp] theorem advance_tape : (advance s).tape = s.tape := rfl
@[simp] theorem advance_dp : (advance s).dp = s.dp := rfl
@[simp] theorem advance_pc : (advance s).pc = s.pc + 1 := rfl
@[simp] theorem advance_out : (advance s).out = s.out := rfl
@[simp] theorem advance_rs : (advance s).rs = s.rs := rfl
@[simp] theorem advance_ldovf : (advance s).ldovf = s.ldovf := rfl
@[simp] theorem advance_faultInfo : (advance s).faultInfo = s.faultInfo := rfl
@[simp] theorem advance_hostMoves : (advance s).hostMoves = s.hostMoves := rfl

/-! ## outAppend -/

@[simp] theorem outAppend_imem (v : CellValue) : (outAppend v s).imem = s.imem := rfl
@[simp] theorem outAppend_len (v : CellValue) : (outAppend v s).len = s.len := rfl
@[simp] theorem outAppend_tape (v : CellValue) : (outAppend v s).tape = s.tape := rfl
@[simp] theorem outAppend_dp (v : CellValue) : (outAppend v s).dp = s.dp := rfl
@[simp] theorem outAppend_pc (v : CellValue) : (outAppend v s).pc = s.pc := rfl
@[simp] theorem outAppend_out (v : CellValue) : (outAppend v s).out = s.out ++ [v] := rfl
@[simp] theorem outAppend_rs (v : CellValue) : (outAppend v s).rs = s.rs := rfl
@[simp] theorem outAppend_ldovf (v : CellValue) : (outAppend v s).ldovf = s.ldovf := rfl
@[simp] theorem outAppend_faultInfo (v : CellValue) : (outAppend v s).faultInfo = s.faultInfo := rfl
@[simp] theorem outAppend_hostMoves (v : CellValue) : (outAppend v s).hostMoves = s.hostMoves := rfl

/-! ## enterHalt -/

@[simp] theorem enterHalt_imem : (enterHalt s).imem = s.imem := rfl
@[simp] theorem enterHalt_len : (enterHalt s).len = s.len := rfl
@[simp] theorem enterHalt_tape : (enterHalt s).tape = s.tape := rfl
@[simp] theorem enterHalt_dp : (enterHalt s).dp = s.dp := rfl
@[simp] theorem enterHalt_pc : (enterHalt s).pc = s.pc := rfl
@[simp] theorem enterHalt_out : (enterHalt s).out = s.out := rfl
@[simp] theorem enterHalt_rs : (enterHalt s).rs = .halt := rfl
@[simp] theorem enterHalt_ldovf : (enterHalt s).ldovf = s.ldovf := rfl
@[simp] theorem enterHalt_faultInfo : (enterHalt s).faultInfo = s.faultInfo := rfl
@[simp] theorem enterHalt_hostMoves : (enterHalt s).hostMoves = s.hostMoves := rfl

/-! ## raiseMalformed -/

@[simp] theorem raiseMalformed_imem (d : FaultDir) (i : Nat) : (raiseMalformed d i s).imem = s.imem := rfl
@[simp] theorem raiseMalformed_len (d : FaultDir) (i : Nat) : (raiseMalformed d i s).len = s.len := rfl
@[simp] theorem raiseMalformed_tape (d : FaultDir) (i : Nat) : (raiseMalformed d i s).tape = s.tape := rfl
@[simp] theorem raiseMalformed_dp (d : FaultDir) (i : Nat) : (raiseMalformed d i s).dp = s.dp := rfl
@[simp] theorem raiseMalformed_pc (d : FaultDir) (i : Nat) : (raiseMalformed d i s).pc = s.pc := rfl
@[simp] theorem raiseMalformed_out (d : FaultDir) (i : Nat) : (raiseMalformed d i s).out = s.out := rfl
@[simp] theorem raiseMalformed_rs (d : FaultDir) (i : Nat) : (raiseMalformed d i s).rs = .fault := rfl
@[simp] theorem raiseMalformed_ldovf (d : FaultDir) (i : Nat) : (raiseMalformed d i s).ldovf = s.ldovf := rfl
@[simp] theorem raiseMalformed_faultInfo (d : FaultDir) (i : Nat) : (raiseMalformed d i s).faultInfo = { cause := .malformedProgram, dir := d, atIndex := i } := rfl
@[simp] theorem raiseMalformed_hostMoves (d : FaultDir) (i : Nat) : (raiseMalformed d i s).hostMoves = s.hostMoves := rfl

/-! ## resetEvent -/

@[simp] theorem resetEvent_imem : (resetEvent s).imem = s.imem := rfl
@[simp] theorem resetEvent_len : (resetEvent s).len = 0 := rfl
@[simp] theorem resetEvent_tape : (resetEvent s).tape = [] := rfl
@[simp] theorem resetEvent_dp : (resetEvent s).dp = ⟨0, by decide⟩ := rfl
@[simp] theorem resetEvent_pc : (resetEvent s).pc = 0 := rfl
@[simp] theorem resetEvent_out : (resetEvent s).out = [] := rfl
@[simp] theorem resetEvent_rs : (resetEvent s).rs = .load := rfl
@[simp] theorem resetEvent_ldovf : (resetEvent s).ldovf = false := rfl
@[simp] theorem resetEvent_faultInfo : (resetEvent s).faultInfo = FaultInfo.zero := rfl
@[simp] theorem resetEvent_hostMoves : (resetEvent s).hostMoves = s.hostMoves := rfl

/-! ## appendOpcode -/

@[simp] theorem appendOpcode_imem (k : Opcode) : (appendOpcode k s).imem = Imem.writeFrom 0 s.imem s.len k := rfl
@[simp] theorem appendOpcode_len (k : Opcode) : (appendOpcode k s).len = s.len + 1 := rfl
@[simp] theorem appendOpcode_tape (k : Opcode) : (appendOpcode k s).tape = s.tape := rfl
@[simp] theorem appendOpcode_dp (k : Opcode) : (appendOpcode k s).dp = s.dp := rfl
@[simp] theorem appendOpcode_pc (k : Opcode) : (appendOpcode k s).pc = s.pc := rfl
@[simp] theorem appendOpcode_out (k : Opcode) : (appendOpcode k s).out = s.out := rfl
@[simp] theorem appendOpcode_rs (k : Opcode) : (appendOpcode k s).rs = s.rs := rfl
@[simp] theorem appendOpcode_ldovf (k : Opcode) : (appendOpcode k s).ldovf = s.ldovf := rfl
@[simp] theorem appendOpcode_faultInfo (k : Opcode) : (appendOpcode k s).faultInfo = s.faultInfo := rfl
@[simp] theorem appendOpcode_hostMoves (k : Opcode) : (appendOpcode k s).hostMoves = s.hostMoves := rfl

/-! ## setLdovf -/

@[simp] theorem setLdovf_imem : (setLdovf s).imem = s.imem := rfl
@[simp] theorem setLdovf_len : (setLdovf s).len = s.len := rfl
@[simp] theorem setLdovf_tape : (setLdovf s).tape = s.tape := rfl
@[simp] theorem setLdovf_dp : (setLdovf s).dp = s.dp := rfl
@[simp] theorem setLdovf_pc : (setLdovf s).pc = s.pc := rfl
@[simp] theorem setLdovf_out : (setLdovf s).out = s.out := rfl
@[simp] theorem setLdovf_rs : (setLdovf s).rs = s.rs := rfl
@[simp] theorem setLdovf_ldovf : (setLdovf s).ldovf = true := rfl
@[simp] theorem setLdovf_faultInfo : (setLdovf s).faultInfo = s.faultInfo := rfl
@[simp] theorem setLdovf_hostMoves : (setLdovf s).hostMoves = s.hostMoves := rfl

/-! ## dropHostMove -/

@[simp] theorem dropHostMove_imem : (dropHostMove s).imem = s.imem := rfl
@[simp] theorem dropHostMove_len : (dropHostMove s).len = s.len := rfl
@[simp] theorem dropHostMove_tape : (dropHostMove s).tape = s.tape := rfl
@[simp] theorem dropHostMove_dp : (dropHostMove s).dp = s.dp := rfl
@[simp] theorem dropHostMove_pc : (dropHostMove s).pc = s.pc := rfl
@[simp] theorem dropHostMove_out : (dropHostMove s).out = s.out := rfl
@[simp] theorem dropHostMove_rs : (dropHostMove s).rs = s.rs := rfl
@[simp] theorem dropHostMove_ldovf : (dropHostMove s).ldovf = s.ldovf := rfl
@[simp] theorem dropHostMove_faultInfo : (dropHostMove s).faultInfo = s.faultInfo := rfl
@[simp] theorem dropHostMove_hostMoves : (dropHostMove s).hostMoves = s.hostMoves.tail := rfl

/-! ## placeAtPc -/

@[simp] theorem placeAtPc_imem (w : Opcode) : (placeAtPc w s).imem = Imem.writeFrom 0 s.imem s.pc w := rfl
@[simp] theorem placeAtPc_len (w : Opcode) : (placeAtPc w s).len = max s.len (s.pc + 1) := rfl
@[simp] theorem placeAtPc_tape (w : Opcode) : (placeAtPc w s).tape = s.tape := rfl
@[simp] theorem placeAtPc_dp (w : Opcode) : (placeAtPc w s).dp = s.dp := rfl
@[simp] theorem placeAtPc_pc (w : Opcode) : (placeAtPc w s).pc = s.pc := rfl
@[simp] theorem placeAtPc_out (w : Opcode) : (placeAtPc w s).out = s.out := rfl
@[simp] theorem placeAtPc_rs (w : Opcode) : (placeAtPc w s).rs = .run := rfl
@[simp] theorem placeAtPc_ldovf (w : Opcode) : (placeAtPc w s).ldovf = s.ldovf := rfl
@[simp] theorem placeAtPc_faultInfo (w : Opcode) : (placeAtPc w s).faultInfo = s.faultInfo := rfl
@[simp] theorem placeAtPc_hostMoves (w : Opcode) : (placeAtPc w s).hostMoves = [] := rfl

end Sys2Proof.Machine
end

