-- ==== Sys2Proof/Laws/Memory.lean ====
section
/-!
SUPPORT. The laws of the tape: read after write, the canonical form is kept, and canonical tapes that
read alike are equal; and the laws of writing instruction memory.
-/

namespace Sys2Proof.Machine

/-! ## The canonical form -/

theorem wfFrom_cons {lo b : Nat} {v : CellValue} {rest : List Host.Cell} :
    Memory.wfFrom lo ((b, v) :: rest) = true ↔
      lo ≤ b ∧ b < Config.tapeLen ∧ v ≠ Memory.unlisted ∧ Memory.wfFrom (b + 1) rest = true := by
  simp [Memory.wfFrom, and_assoc]

theorem wfFrom_mono {lo lo' : Nat} {m : List Host.Cell} (h : lo' ≤ lo)
    (hm : Memory.wfFrom lo m = true) : Memory.wfFrom lo' m = true := by
  cases m with
  | nil => rfl
  | cons c rest =>
    obtain ⟨b, v⟩ := c
    rw [wfFrom_cons] at hm ⊢
    exact ⟨by omega, hm.2⟩

/-- Below its first possible index a canonical tape reads as unlisted. -/
theorem read_below {lo a : Nat} {m : List Host.Cell} (hm : Memory.wfFrom lo m = true) (h : a < lo) :
    Memory.read m a = Memory.unlisted := by
  cases m with
  | nil => rfl
  | cons c rest =>
    obtain ⟨b, v⟩ := c
    rw [wfFrom_cons] at hm
    simp [Memory.read, show a < b by omega]

theorem write_wfFrom {lo a : Nat} {m : List Host.Cell} {v : CellValue}
    (hm : Memory.wfFrom lo m = true) (hlo : lo ≤ a) (ha : a < Config.tapeLen) :
    Memory.wfFrom lo (Memory.write m a v) = true := by
  induction m generalizing lo with
  | nil =>
    by_cases hv : v = Memory.unlisted
    · simp [Memory.write, hv, Memory.wfFrom]
    · simp only [Memory.write, if_neg hv]
      exact wfFrom_cons.2 ⟨hlo, ha, hv, rfl⟩
  | cons c rest ih =>
    obtain ⟨b, w⟩ := c
    have hc := wfFrom_cons.1 hm
    simp only [Memory.write]
    split
    · split
      · exact hm
      · rename_i hab hv
        exact wfFrom_cons.2 ⟨hlo, ha, hv, wfFrom_cons.2 ⟨hab, hc.2⟩⟩
    · split
      · rename_i hab
        subst hab
        split
        · exact wfFrom_mono (by omega) hc.2.2.2
        · rename_i hv
          exact wfFrom_cons.2 ⟨hlo, ha, hv, hc.2.2.2⟩
      · exact wfFrom_cons.2 ⟨hc.1, hc.2.1, hc.2.2.1, ih hc.2.2.2 (by omega)⟩

/-- Every write keeps the canonical form. -/
theorem write_wf {a : DataPtr} {m : List Host.Cell} {v : CellValue} (hm : Memory.wf m = true) :
    Memory.wf (Memory.write m a.val v) = true :=
  write_wfFrom hm (Nat.zero_le _) a.isLt

/-! ## Read after write -/

theorem read_write_from {lo a b : Nat} {m : List Host.Cell} {v : CellValue}
    (hm : Memory.wfFrom lo m = true) :
    Memory.read (Memory.write m a v) b = if b = a then v else Memory.read m b := by
  induction m generalizing lo with
  | nil =>
    by_cases hv : v = Memory.unlisted <;> simp only [Memory.write, Memory.read, hv] <;> grind [Memory.read]
  | cons c rest ih =>
    obtain ⟨d, w⟩ := c
    have hc := wfFrom_cons.1 hm
    have hbelow : ∀ x, x < d + 1 → Memory.read rest x = Memory.unlisted :=
      fun x hx => read_below hc.2.2.2 hx
    have ih' := ih hc.2.2.2
    simp only [Memory.write]
    grind [Memory.read]

/-- A write changes the cell written and no other. -/
theorem read_write {a b : Nat} {m : List Host.Cell} {v : CellValue} (hm : Memory.wf m = true) :
    Memory.read (Memory.write m a v) b = if b = a then v else Memory.read m b :=
  read_write_from hm

/-! ## Equal reading is equality -/

theorem eq_of_read_from {lo : Nat} {m n : List Host.Cell} (hm : Memory.wfFrom lo m = true)
    (hn : Memory.wfFrom lo n = true)
    (h : ∀ a, lo ≤ a → a < Config.tapeLen → Memory.read m a = Memory.read n a) : m = n := by
  induction m generalizing lo n with
  | nil =>
    cases n with
    | nil => rfl
    | cons c rest =>
      obtain ⟨b, v⟩ := c
      have hc := wfFrom_cons.1 hn
      have := h b hc.1 hc.2.1
      simp [Memory.read] at this
      exact absurd this.symm hc.2.2.1
  | cons c rest ih =>
    obtain ⟨b, v⟩ := c
    have hc := wfFrom_cons.1 hm
    cases n with
    | nil =>
      have := h b hc.1 hc.2.1
      simp [Memory.read] at this
      exact absurd this hc.2.2.1
    | cons c' rest' =>
      obtain ⟨b', v'⟩ := c'
      have hc' := wfFrom_cons.1 hn
      have hb : b = b' := by
        rcases Nat.lt_trichotomy b b' with hlt | heq | hgt
        · have := h b hc.1 hc.2.1
          simp [Memory.read, hlt] at this
          exact absurd this hc.2.2.1
        · exact heq
        · have := h b' hc'.1 hc'.2.1
          simp [Memory.read, hgt] at this
          exact absurd this.symm hc'.2.2.1
      subst hb
      have hv : v = v' := by simpa [Memory.read] using h b hc.1 hc.2.1
      subst hv
      refine congrArg _ (ih hc.2.2.2 hc'.2.2.2 fun a ha hlt => ?_)
      have := h a (by omega) hlt
      simpa [Memory.read, show ¬a < b by omega, show ¬a = b by omega] using this

/-- Two canonical tapes that read alike at every cell are the same list. -/
theorem eq_of_read {m n : List Host.Cell} (hm : Memory.wf m = true) (hn : Memory.wf n = true)
    (h : ∀ a : DataPtr, Memory.read m a.val = Memory.read n a.val) : m = n :=
  eq_of_read_from hm hn fun a _ ha => h ⟨a, ha⟩

/-! ## Through the data pointer -/

theorem memRead_memWrite {a b : DataPtr} {v : CellValue} {s : State} (hm : Memory.wf s.tape = true) :
    memRead b (memWrite a v s) = if b = a then v else memRead b s := by
  simp [memRead, read_write hm, Fin.ext_iff]

theorem memRead_setCurrentCell {b : DataPtr} {v : CellValue} {s : State}
    (hm : Memory.wf s.tape = true) :
    memRead b (setCurrentCell v s) = if b = s.dp then v else memRead b s :=
  memRead_memWrite hm

theorem reset_tape_wf : Memory.wf State.reset.tape = true := by decide

/-! ## Writing instruction memory -/

theorem writeFrom_getD (base i j : Nat) (m : List Opcode) (w : Opcode) :
    (Imem.writeFrom base m i w).getD j (Config.unloadedWord (base + j)) =
      if j = i then w else m.getD j (Config.unloadedWord (base + j)) := by
  induction i generalizing base m j with
  | zero => cases m <;> cases j <;> simp [Imem.writeFrom]
  | succ n ih =>
    cases m with
    | nil =>
      cases j with
      | zero => simp [Imem.writeFrom]
      | succ k =>
        have := ih (base := base + 1) (j := k) (m := [])
        simpa [Imem.writeFrom, Nat.add_assoc, Nat.add_comm 1 k] using this
    | cons x rest =>
      cases j with
      | zero => simp [Imem.writeFrom]
      | succ k =>
        have := ih (base := base + 1) (j := k) (m := rest)
        simpa [Imem.writeFrom, Nat.add_assoc, Nat.add_comm 1 k] using this

/-- The word written is fetched there, and every other index fetches as before. -/
theorem ifetch_imemWrite (i j : Nat) (w : Opcode) (s : State) :
    ifetch j (imemWrite i w s) = if j = i then w else ifetch j s := by
  simpa [ifetch] using writeFrom_getD 0 i j s.imem w

theorem writeFrom_length (base i : Nat) (m : List Opcode) (w : Opcode) :
    (Imem.writeFrom base m i w).length = max m.length (i + 1) := by
  induction i generalizing base m with
  | zero => cases m <;> simp [Imem.writeFrom]
  | succ n ih => cases m <;> simp [Imem.writeFrom, ih]

/-- Storing the next word extends the words before it by exactly that word. -/
theorem writeFrom_take (base i : Nat) (m : List Opcode) (w : Opcode) (h : i ≤ m.length) :
    (Imem.writeFrom base m i w).take (i + 1) = m.take i ++ [w] := by
  induction i generalizing base m with
  | zero => cases m <;> simp [Imem.writeFrom]
  | succ n ih =>
    cases m with
    | nil => simp at h
    | cons x rest => simpa [Imem.writeFrom] using ih (base + 1) rest (by simpa using h)

end Sys2Proof.Machine
end

