-- ==== Sys2Proof/Laws/Ops.lean ====
section
/-!
SUPPORT. One lemma per shared operation that says what it can do: the pointer and cell arithmetic as
numbers, the bracket scan's results, and the cases of a core step and of a turn.
-/

namespace Sys2Proof.Machine

/-! ## Arithmetic -/

@[simp] theorem nextPtr_val (p : DataPtr) : (nextPtr p).val = (p.val + 1) % Config.tapeLen := rfl

@[simp] theorem prevPtr_val (p : DataPtr) :
    (prevPtr p).val = (p.val + (Config.tapeLen - 1)) % Config.tapeLen := rfl

theorem nextCell_toNat (v : CellValue) : (nextCell v).toNat = (v.toNat + 1) % Config.cellMod := by
  simp [nextCell]

theorem prevCell_toNat (v : CellValue) :
    (prevCell v).toNat = (v.toNat + (Config.cellMod - 1)) % Config.cellMod := by
  simp [prevCell]

theorem cellIsZero_iff (s : State) : cellIsZero s = true ↔ memRead s.dp s = 0#8 := by
  simp [cellIsZero, currentCell]

/-! ## The bracket scan -/

theorem scanForwardLoop_some {s : State} {left scan level j : Nat}
    (h : scanForwardLoop s left scan level = some j) :
    scan ≤ j ∧ j < scan + left ∧ instrAt j s = .jumpIfNonZero := by
  induction left generalizing scan level with
  | zero => simp [scanForwardLoop] at h
  | succ left ih =>
    have skip : ∀ level', scanForwardLoop s left (scan + 1) level' = some j →
        scan ≤ j ∧ j < scan + (left + 1) ∧ instrAt j s = .jumpIfNonZero := fun level' h' => by
      have := ih h'
      exact ⟨by omega, by omega, this.2.2⟩
    simp only [scanForwardLoop] at h
    split at h
    · exact skip _ h
    · rename_i hi
      split at h
      · simp only [Option.some.injEq] at h
        subst h
        exact ⟨Nat.le_refl _, by omega, hi⟩
      · exact skip _ h
    all_goals exact skip _ h

theorem scanBackwardLoop_some {s : State} {beyond level i : Nat}
    (h : scanBackwardLoop s beyond level = some i) : i < beyond ∧ instrAt i s = .jumpIfZero := by
  induction beyond generalizing level with
  | zero => simp [scanBackwardLoop] at h
  | succ scan ih =>
    have skip : ∀ level', scanBackwardLoop s scan level' = some i →
        i < scan + 1 ∧ instrAt i s = .jumpIfZero := fun level' h' => by
      have := ih h'
      exact ⟨by omega, this.2⟩
    simp only [scanBackwardLoop] at h
    split at h
    · exact skip _ h
    · rename_i hi
      split at h
      · simp only [Option.some.injEq] at h
        subst h
        exact ⟨Nat.lt_succ_self _, hi⟩
      · exact skip _ h
    all_goals exact skip _ h

/-- A scan reads instruction memory only, and only below `LEN`. -/
theorem scanForwardLoop_congr {s t : State} {left scan level : Nat}
    (h : ∀ j, scan ≤ j → j < scan + left → instrAt j t = instrAt j s) :
    scanForwardLoop t left scan level = scanForwardLoop s left scan level := by
  induction left generalizing scan level with
  | zero => rfl
  | succ left ih =>
    have ih' : ∀ level', scanForwardLoop t left (scan + 1) level' =
        scanForwardLoop s left (scan + 1) level' :=
      fun level' => ih fun j h1 h2 => h j (by omega) (by omega)
    simp only [scanForwardLoop, h scan (Nat.le_refl _) (by omega), ih']

theorem scanBackwardLoop_congr {s t : State} {beyond level : Nat}
    (h : ∀ j, j < beyond → instrAt j t = instrAt j s) :
    scanBackwardLoop t beyond level = scanBackwardLoop s beyond level := by
  induction beyond generalizing level with
  | zero => rfl
  | succ scan ih =>
    have ih' : ∀ level', scanBackwardLoop t scan level' = scanBackwardLoop s scan level' :=
      fun level' => ih fun j h1 => h j (by omega)
    simp only [scanBackwardLoop, h scan (by omega), ih']

/-! ## The core's step and the turn -/

theorem nextAction_execute_iff {s : State} {i : Instr} :
    nextAction s = .execute i ↔ s.rs = .run ∧ s.pc < s.len ∧ i = instrAt s.pc s := by
  unfold nextAction
  cases h : s.rs <;> simp
  split
  · simp; omega
  · split <;> simp [*, eq_comm]

theorem nextAction_halt_iff {s : State} : nextAction s = .halt ↔ s.rs = .run ∧ s.pc = s.len := by
  unfold nextAction
  cases h : s.rs <;> simp
  by_cases he : s.pc = s.len
  · simp [he]
  · by_cases hl : s.pc < s.len <;> simp [he, hl]

/-- A core step that goes on either halts at the end of the program or runs one instruction. -/
theorem coreStep_next {s t : State} (h : coreStep s = .next t) :
    (s.rs = .run ∧ s.pc = s.len ∧ t = enterHalt s) ∨
      (s.rs = .run ∧ s.pc < s.len ∧ exec (instrAt s.pc s) s = .next t) := by
  unfold coreStep at h
  split at h
  · rename_i ha
    cases h
    exact .inl ⟨(nextAction_halt_iff.1 ha).1, (nextAction_halt_iff.1 ha).2, rfl⟩
  · rename_i i ha
    obtain ⟨h1, h2, rfl⟩ := nextAction_execute_iff.1 ha
    exact .inr ⟨h1, h2, h⟩
  · cases h

/-- What an executed instruction can do, said once: six arms write one thing and advance; a bracket
falls through, jumps to its match, or takes the exception. -/
theorem exec_next {i : Instr} {s t : State} (h : exec i s = .next t) :
    (i = .moveRight ∧ t = advance (setDp (nextPtr s.dp) s)) ∨
    (i = .moveLeft ∧ t = advance (setDp (prevPtr s.dp) s)) ∨
    (i = .increment ∧ t = advance (setCurrentCell (nextCell (currentCell s)) s)) ∨
    (i = .decrement ∧ t = advance (setCurrentCell (prevCell (currentCell s)) s)) ∨
    (i = .output ∧ t = advance (outAppend (currentCell s) s)) ∨
    (i = .input ∧ t = advance s) ∨
    (i = .jumpIfZero ∧ ((cellIsZero s = false ∧ t = advance s) ∨
      (∃ j, cellIsZero s = true ∧ scanForward s.pc s = some j ∧ t = advance (setPc j s)) ∨
      (cellIsZero s = true ∧ scanForward s.pc s = none ∧ t = raiseMalformed .opening s.pc s))) ∨
    (i = .jumpIfNonZero ∧ ((cellIsZero s = true ∧ t = advance s) ∨
      (∃ j, cellIsZero s = false ∧ scanBackward s.pc s = some j ∧ t = advance (setPc j s)) ∨
      (cellIsZero s = false ∧ scanBackward s.pc s = none ∧
        t = raiseMalformed .closing s.pc s))) := by
  cases i with
  | jumpIfZero =>
    simp only [exec, execJumpIfZero] at h
    split at h
    · split at h <;> cases h <;> simp_all
    · cases h; simp_all
  | jumpIfNonZero =>
    simp only [exec, execJumpIfNonZero] at h
    split at h
    · cases h; simp_all
    · split at h <;> cases h <;> simp_all
  | _ => cases h; simp

/-- With no host move left, a step is the core's. -/
theorem step_of_listening {s : State} (h : s.hostMoves = []) : step s = coreStep s := by
  simp [step, turn, h]

/-- Whose step it was, said once. -/
theorem step_next {s t : State} (h : step s = .next t) :
    (s.hostMoves = [] ∧ coreStep s = .next t) ∨
    (∃ ms, s.hostMoves = .reset :: ms ∧ t = resetEvent (dropHostMove s)) ∨
    (∃ c ms, s.hostMoves = .loadChar c :: ms ∧ t = loadChar c (dropHostMove s)) ∨
    (∃ ms, s.hostMoves = .start :: ms ∧ t = startEvent (dropHostMove s)) ∨
    (∃ ms, s.hostMoves = .listen :: ms ∧ s.rs = .run ∧ coreStep (dropHostMove s) = .next t) ∨
    (∃ ms, s.hostMoves = .listen :: ms ∧ s.rs ≠ .run ∧ t = dropHostMove s) := by
  unfold step turn at h
  split at h
  · rename_i u hu
    cases h
    split at hu <;> simp_all
    split at hu <;> simp_all
  · rename_i u hu
    split at hu <;> simp_all
    split at hu <;> simp_all

end Sys2Proof.Machine
end

