-- ==== Sys2Proof/Laws/Host.lean ====
section
/-!
SUPPORT. What the host's events can do, one lemma each.
-/

namespace Sys2Proof.Machine

/-- `LoadChar` either changes nothing, or refuses a symbol that does not fit, or appends its opcode. -/
theorem loadCharIn_cases (depth : Option Nat) (c : CharCode) (s : State) :
    ((s.rs ≠ .load ∨ symbolToOpcode c = none) ∧ loadCharIn depth c s = s) ∨
    (∃ k, s.rs = .load ∧ symbolToOpcode c = some k ∧ depth = some s.len ∧
      loadCharIn depth c s = setLdovf s) ∨
    (∃ k, s.rs = .load ∧ symbolToOpcode c = some k ∧ depth ≠ some s.len ∧
      loadCharIn depth c s = appendOpcode k s) := by
  unfold loadCharIn
  cases hr : s.rs <;> simp
  cases hk : symbolToOpcode c with
  | none => simp
  | some k => by_cases hd : depth = some s.len <;> simp [hd]

/-- `Start` either begins the run or changes nothing. -/
theorem startEvent_cases (s : State) :
    (s.rs = .load ∧ s.ldovf = false ∧ startEvent s = { s with rs := .run }) ∨
    ((s.rs ≠ .load ∨ s.ldovf = true) ∧ startEvent s = s) := by
  unfold startEvent
  cases hr : s.rs <;> simp
  cases hl : s.ldovf <;> simp

/-- The core's part of `LoadChar` does not depend on the host's later moves, and leaves them. -/
theorem loadChar_hostMoves_update (c : CharCode) (s : State) (m : List HostMove) :
    loadChar c { s with hostMoves := m } = { loadChar c s with hostMoves := m } := by
  obtain ⟨_, _, _, _, _, _, rs, _, _, _⟩ := s
  cases rs <;> simp only [loadChar, loadCharIn]
  cases symbolToOpcode c <;> simp only
  split <;> rfl

/-- The core's part of `Start` does not depend on the host's later moves, and leaves them. -/
theorem startEvent_hostMoves_update (s : State) (m : List HostMove) :
    startEvent { s with hostMoves := m } = { startEvent s with hostMoves := m } := by
  obtain ⟨_, _, _, _, _, _, rs, ldovf, _, _⟩ := s
  cases rs <;> cases ldovf <;> rfl

@[simp] theorem loadChar_hostMoves (c : CharCode) (s : State) :
    (loadChar c s).hostMoves = s.hostMoves := by
  obtain ⟨-, h⟩ | ⟨k, -, -, -, h⟩ | ⟨k, -, -, -, h⟩ := loadCharIn_cases Config.imemDepth c s <;>
    simp [loadChar, h]

@[simp] theorem startEvent_hostMoves (s : State) : (startEvent s).hostMoves = s.hostMoves := by
  obtain ⟨-, -, h⟩ | ⟨-, h⟩ := startEvent_cases s <;> simp [h]

/-- A step whose next host move is an event applies it and leaves the later moves. -/
theorem step_reset_first (s : State) (m : List HostMove) :
    step { s with hostMoves := .reset :: m } = .next { resetEvent s with hostMoves := m } := rfl

theorem step_loadChar_first (c : CharCode) (s : State) (m : List HostMove) :
    step { s with hostMoves := .loadChar c :: m } = .next { loadChar c s with hostMoves := m } :=
  congrArg Host.Outcome.next (loadChar_hostMoves_update c s m)

theorem step_start_first (s : State) (m : List HostMove) :
    step { s with hostMoves := .start :: m } = .next { startEvent s with hostMoves := m } :=
  congrArg Host.Outcome.next (startEvent_hostMoves_update s m)

/-- A turn of a host that listens, with nothing after it. -/
theorem step_of_last_listen (s : State) (h : s.hostMoves = []) :
    step { s with hostMoves := [.listen] } = if s.rs = .run then coreStep s else .next s := by
  obtain ⟨_, _, _, _, _, _, rs, _, _, _⟩ := s
  subst h
  cases rs <;> rfl

@[simp] theorem loadChars_nil (s : State) : loadChars [] s = s := rfl

@[simp] theorem loadChars_cons (c : CharCode) (t : List CharCode) (s : State) :
    loadChars (c :: t) s = loadChars t (loadChar c s) := rfl

/-- Loading a word extends the program by it. -/
theorem program_appendOpcode (k : Opcode) (s : State) (h : s.len ≤ s.imem.length) :
    program (appendOpcode k s) = program s ++ [k] := by
  simpa [program] using writeFrom_take 0 s.len s.imem k h

/-- A program word is what is fetched at its index. -/
theorem program_getElem? (s : State) (i : Nat) (hi : i < s.len) (h : s.len ≤ s.imem.length) :
    (program s)[i]? = some (ifetch i s) := by
  have hlt : i < s.imem.length := Nat.lt_of_lt_of_le hi h
  simp [program, ifetch, hi, List.getElem?_eq_getElem hlt]

end Sys2Proof.Machine
end

