-- ==== Sys2Proof/Laws/PerInstr.lean ====
section
/-!
SUPPORT. Per-instruction laws of the syntax: a source symbol loads as the word of its instruction
(spec/30_encoding.md R75), and every instruction is well formed (R72).
-/

namespace Sys2Proof.Laws.SymbolLoads

/-- The symbol of `i` loads as the word of `i`, and `i` is well formed. -/
def Statement (i : Instr) : Prop := symbolToOpcode (sourceSymbol i) = some (encode i) ∧ i.wf = true

theorem moveRight : Statement .moveRight := ⟨rfl, rfl⟩

theorem moveLeft : Statement .moveLeft := ⟨rfl, rfl⟩

theorem increment : Statement .increment := ⟨rfl, rfl⟩

theorem decrement : Statement .decrement := ⟨rfl, rfl⟩

theorem output : Statement .output := ⟨rfl, rfl⟩

theorem input : Statement .input := ⟨rfl, rfl⟩

theorem jumpIfZero : Statement .jumpIfZero := ⟨rfl, rfl⟩

theorem jumpIfNonZero : Statement .jumpIfNonZero := ⟨rfl, rfl⟩

end Sys2Proof.Laws.SymbolLoads
end

