-- ==== Sys2Proof/Tests/Slice0.lean ====
section
/-!
SUPPORT. Small tests with results from the spec (spec/95_test_vectors.md, R98, R152, R153), the smoke
test of WellFormed, and for every obligation with hypotheses a concrete state that meets them.
-/

namespace Sys2Proof.Tests

open Sys2Proof.Machine

/-- R79: a program image, one number for each word. -/
def image (p : List Nat) : List Opcode := p.map (BitVec.ofNat 3)

/-- The core running `p` at index `pc` with the pointer on cell `dp` and the given non-zero cells. -/
def running (p : List Nat) (pc dp : Nat) (cells : List Host.Cell) : State :=
  { State.reset with
    imem := image p
    len := p.length
    pc := pc
    dp := Fin.ofNat Config.tapeLen dp
    tape := cells
    rs := .run }

/-- The state a step goes on to, if it does. -/
def nextOf (o : Host.Outcome State Fault Refusal) : Option State :=
  match o with
  | .next s => some s
  | .fault _ => none
  | .refused _ => none

/-! ## Decoding: words written out from R71, symbols from R75 -/

theorem test_decode_moves : decode 0b000#3 = .moveRight ∧ decode 0b001#3 = .moveLeft := by decide

theorem test_decode_arith : decode 0b010#3 = .increment ∧ decode 0b011#3 = .decrement := by decide

theorem test_decode_io : decode 0b100#3 = .output ∧ decode 0b101#3 = .input := by decide

theorem test_decode_jumps : decode 0b110#3 = .jumpIfZero ∧ decode 0b111#3 = .jumpIfNonZero := by
  decide

theorem test_table_word : decodeTableWord 8 6 = some .jumpIfZero ∧ decodeTableWord 8 8 = none := by
  decide

/-- R79: `+[-].` loads as 26374. -/
theorem test_load_text :
    loadText [0x2B#8, 0x5B#8, 0x2D#8, 0x5D#8, 0x2E#8] = image [2, 6, 3, 7, 4] := by decide

/-- R98: `a[b]c` loads as 67; codes 0x00 and 0x80 are comments. -/
theorem test_load_comments :
    loadText [0x61#8, 0x5B#8, 0x62#8, 0x5D#8, 0x63#8, 0x00#8, 0x80#8] = image [6, 7] := by decide

/-! ## WellFormed: the check on programs refuses these; no instruction is ill formed (R72) -/

theorem smoke_close_before_open : balanced [.jumpIfNonZero, .jumpIfZero] = false := by decide

theorem smoke_never_closed : balanced [.jumpIfZero, .increment] = false := by decide

theorem smoke_balanced : balanced [.jumpIfZero, .jumpIfZero, .jumpIfNonZero, .jumpIfNonZero] = true := by
  decide

theorem smoke_every_instr_wf (i : Instr) : i.wf = true := by cases i <;> rfl

theorem smoke_bits_too_wide : decodeBits 8 = .error .widerThanOneWord := by rfl

/-! ## One step: the mid-run vectors M1 to M10 -/

theorem test_moveRight_wraps :
    nextOf (step (running [0] 0 65534 [(65534, 7#8)])) = some (running [0] 1 0 [(65534, 7#8)]) := by
  decide

theorem test_moveLeft_wraps :
    nextOf (step (running [1] 0 0 [(0, 9#8)])) = some (running [1] 1 65534 [(0, 9#8)]) := by decide

theorem test_increment_wraps :
    nextOf (step (running [2] 0 12 [(12, 255#8)])) = some (running [2] 1 12 []) := by decide

theorem test_decrement_wraps :
    nextOf (step (running [3] 0 12 [])) = some (running [3] 1 12 [(12, 255#8)]) := by decide

theorem test_output_appends_zero :
    nextOf (step { running [4] 0 3 [] with out := [9#8] }) =
      some { running [4] 1 3 [] with out := [9#8, 0#8] } := by decide

theorem test_input_is_noop :
    nextOf (step (running [5] 0 3 [(3, 77#8)])) = some (running [5] 1 3 [(3, 77#8)]) := by decide

theorem test_jumpIfZero_taken :
    nextOf (step (running [2, 6, 6, 3, 7, 3, 7, 4] 1 0 [])) =
      some (running [2, 6, 6, 3, 7, 3, 7, 4] 7 0 []) := by decide

theorem test_jumpIfZero_falls_through :
    nextOf (step (running [2, 6, 6, 3, 7, 3, 7, 4] 2 0 [(0, 1#8)])) =
      some (running [2, 6, 6, 3, 7, 3, 7, 4] 3 0 [(0, 1#8)]) := by decide

theorem test_jumpIfNonZero_taken_over_nested :
    nextOf (step (running [2, 6, 6, 3, 7, 3, 7, 4] 6 0 [(0, 2#8)])) =
      some (running [2, 6, 6, 3, 7, 3, 7, 4] 2 0 [(0, 2#8)]) := by decide

/-- V9: `+]` at index 1 with cell 1 raises `MalformedProgram(Close, 1)` and `PC` stays. -/
theorem test_jumpIfNonZero_unmatched :
    nextOf (step (running [2, 7] 1 0 [(0, 1#8)])) =
      some { running [2, 7] 1 0 [(0, 1#8)] with
        rs := .fault
        faultInfo := { cause := .malformedProgram, dir := .closing, atIndex := 1 } } := by decide

/-- R152: scans over nested pairs, and scans that leave the program. -/
theorem test_scans :
    scanForward 0 (running [6, 6, 3, 7, 2, 7, 2, 4] 0 0 []) = some 5 ∧
    scanForward 1 (running [6, 6, 3, 7, 2, 7, 2, 4] 0 0 []) = some 3 ∧
    scanBackward 5 (running [6, 6, 3, 7, 2, 7, 2, 4] 0 0 []) = some 0 ∧
    scanForward 0 (running [6, 6, 7] 0 0 []) = none ∧
    scanBackward 3 (running [6, 7, 7, 7] 0 0 []) = none := by decide

/-- R152: the `IMEM` reads of four of those scans, and how `LEVEL` goes 0, 1, 0 in `667`. -/
theorem test_scan_reads :
    forwardReads 0 (running [6, 6, 3, 7, 2, 7, 2, 4] 0 0 []) = 5 ∧
    backwardReads 5 (running [6, 6, 3, 7, 2, 7, 2, 4] 0 0 []) = 5 ∧
    forwardReads 0 (running [6, 6, 7] 0 0 []) = 2 ∧
    backwardReads 3 (running [6, 7, 7, 7] 0 0 []) = 3 ∧
    (forwardScanHeads 0 (running [6, 6, 7] 0 0 [])).map Prod.snd = [0, 1, 0] := by decide

/-- V11: the empty program halts on its first step. -/
theorem test_halt : nextOf (step (running [] 0 0 [])) = some { running [] 0 0 [] with rs := .halt } := by
  decide

/-- R95: a symbol at `LEN = IMEM_DEPTH` is not stored and sets `LDOVF`. -/
theorem test_load_overflow :
    loadCharIn (some 1) 0x2B#8 { State.reset with imem := image [5], len := 1 } =
      { State.reset with imem := image [5], len := 1, ldovf := true } := by decide

/-- S7: the program `[`, placed where the first step fetches, faults with `Open` at 0. -/
theorem test_first_word_runs :
    nextOf (step (State.reset.withFetchWord 8 6)) =
      some { running [6] 0 0 [] with
        rs := .fault
        faultInfo := { cause := .malformedProgram, dir := .opening, atIndex := 0 } } := by decide

/-- R29, R30: `STATUS` and `FAULTINFO` of that state as words. -/
theorem test_status_words :
    (running [6] 0 0 []).statusWord = 0b001#3 ∧
    ({ cause := .malformedProgram, dir := .closing, atIndex := 2 } : FaultInfo).word = 21 := by decide

/-! ## Witnesses

For each obligation with hypotheses, a state and operands that meet them, at the ends of the ranges
where a clause has one. The obligation's name follows `witness_`. -/

/-- One word always fits (R9: `IMEM_DEPTH >= 1`). -/
theorem one_word_fits : Config.Fits Config.imemDepth 1 := by
  intro d h
  simp only [Config.imemDepth, Option.map_eq_some_iff] at h
  obtain ⟨n, -, rfl⟩ := h
  exact Nat.le_add_left 1 n

theorem running_wf_one_word : WF (running [2] 0 0 []) := by
  constructor <;> decide

theorem running_within_depth_one_word : WithinDepth (running [2] 0 0 []) := by
  refine ⟨one_word_fits, one_word_fits, ?_⟩
  intro h
  exact absurd h (by decide)

/-- A core stopped by `MalformedProgram(Close, 1)` (V9). -/
def faulted : State :=
  { running [2, 7] 1 0 [(0, 1#8)] with
    rs := .fault
    faultInfo := { cause := .malformedProgram, dir := .closing, atIndex := 1 } }

theorem faulted_wf : WF faulted := by constructor <;> decide

/-- A core that ran `+` to its end. -/
def halted : State := { running [2] 1 0 [(0, 1#8)] with rs := .halt }

theorem halted_wf : WF halted := by constructor <;> decide

theorem reset_wf : WF State.reset := by constructor <;> decide

theorem witness_CommentCodesAreDiscarded :
    symbolToOpcode 0x00#8 = none ∧ symbolToOpcode 0x2F#8 = none ∧ symbolToOpcode 0xFF#8 = none := by
  decide

theorem witness_LoadCharFollowsItsPseudocode :
    (running [] 0 0 []).rs ≠ .load ∧
    (State.reset.rs = .load ∧ symbolToOpcode 0x20#8 = none) ∧
    (State.reset.rs = .load ∧ symbolToOpcode 0x3E#8 = some 0#3 ∧
      some 1 = some { State.reset with imem := image [5], len := 1 }.len) ∧
    (State.reset.rs = .load ∧ symbolToOpcode 0x5D#8 = some 7#3 ∧ some 1 ≠ some State.reset.len ∧
      (1 : Nat) ≠ State.reset.len) ∧
    0x20#8 ∉ [0x3E#8, 0x3C#8, 0x2B#8, 0x2D#8, 0x2E#8, 0x2C#8, 0x5B#8, 0x5D#8] := by decide

theorem witness_LoadOverflowIsRefused :
    (State.reset.rs = .load ∧ symbolToOpcode 0x2B#8 = some 2#3 ∧ State.reset.len = 0) ∧
    (setLdovf State.reset).ldovf = true ∧
    nextOf (step { setLdovf State.reset with hostMoves := [.start] }) = some (setLdovf State.reset) ∧
    nextOf (step { setLdovf State.reset with hostMoves := [.reset] }) = some State.reset := by decide

theorem witness_LoadAndStartIgnoredOutsideLoad : (running [2] 0 0 []).rs ≠ .load := by decide

theorem witness_LoaderAppendsTheSymbolsOfTheText :
    State.reset.rs = .load ∧ State.reset.len ≤ State.reset.imem.length ∧
      Config.Fits Config.imemDepth (State.reset.len + (loadText [0x61#8, 0x2B#8]).length) :=
  ⟨rfl, Nat.le_refl _, one_word_fits⟩

theorem witness_CommentsNeverMatter :
    loadText [0x61#8, 0x2B#8] = loadText [0x2B#8, 0x0A#8, 0x62#8] := by decide

theorem witness_ResetWinsInEveryRunState :
    { running [2] 0 0 [] with hostMoves := [.reset, .start] }.hostMoves = [.reset, .start] := by decide

theorem witness_EventsAreTakenOneAtATime :
    (running [2] 0 0 []).hostMoves = [] ∧
    { State.reset with hostMoves := [.start] }.hostMoves = .start :: [] ∧
    State.reset.rs = .load ∧ State.reset.ldovf = false ∧
    ((running [2] 0 0 []).rs ≠ .load ∨ (running [2] 0 0 []).ldovf = true) ∧
    (running [2] 0 0 []).rs = .run ∧ State.reset.rs ≠ .run := by decide

theorem witness_BootReachesTheEntryState :
    Config.Fits Config.imemDepth (loadText []).length ∧
      Config.Fits Config.imemDepth (loadText [0x61#8, 0x2B#8]).length :=
  ⟨fun _ _ => Nat.zero_le _, one_word_fits⟩

theorem witness_ResetErasesThePast : (running [2, 7] 1 5 [(5, 1#8)]).hostMoves = halted.hostMoves := by
  decide

theorem witness_SampledInputsAreOrdered :
    (running [2] 0 0 []).hostMoves = [] ∧ (running [2] 0 0 []).rs = .run ∧
    State.reset.hostMoves = [] ∧ State.reset.rs ≠ .run ∧
    ({ rst := true, ldValid := true, ldChar := 0#8, start := true } : InPorts).rst = true ∧
    ({ rst := false, ldValid := true, ldChar := 0#8, start := true } : InPorts).ldValid = true ∧
    ({ rst := false, ldValid := false, ldChar := 0#8, start := true } : InPorts).start = true ∧
    ({ rst := false, ldValid := false, ldChar := 0#8, start := false } : InPorts).start = false := by
  decide

/-- R40: all pins high at one edge, over a run: the reset comes first, and what is left of the edge is
the offered character, then the start, then the core's turn. -/
theorem test_edge_with_all_pins_high :
    step ((running [2] 0 0 []).sample
      { rst := true, ldValid := true, ldChar := 0x2B#8, start := true }) =
      .next { State.reset with imem := [2], hostMoves := [.loadChar 0x2B#8, .start, .listen] } := rfl

theorem witness_StepKeepsTheInvariant :
    WF (running [2] 0 0 []) ∧ (step (running [2] 0 0 []) = .next (running [2] 1 0 [(0, 1#8)])) ∧
    WF { State.reset with hostMoves := [.start] } ∧
    (step { State.reset with hostMoves := [.start] } = .next (running [] 0 0 [])) :=
  ⟨running_wf_one_word, rfl, by constructor <;> decide, rfl⟩

theorem witness_StepKeepsTheProgramWithinDepth :
    WF (running [2] 0 0 []) ∧ WithinDepth (running [2] 0 0 []) ∧
      step (running [2] 0 0 []) = .next (running [2] 1 0 [(0, 1#8)]) :=
  ⟨running_wf_one_word, running_within_depth_one_word, rfl⟩

theorem witness_StatusWordsHoldTheirFields : WF faulted ∧ WF halted := ⟨faulted_wf, halted_wf⟩

theorem witness_PcWidthHoldsEveryIndex : WF faulted ∧ 1 ≤ 2 ∧ faulted.len ≤ 2 :=
  ⟨faulted_wf, by decide, by decide⟩

theorem witness_StepRunsTheDecodedInstruction :
    (running [2] 0 0 []).rs = .run ∧ (running [2] 0 0 []).hostMoves = [] ∧
    (running [2] 0 0 []).pc < (running [2] 0 0 []).len ∧
    (running [2] 1 0 []).pc = (running [2] 1 0 []).len ∧
    { running [2] 0 0 [] with hostMoves := [.listen] }.hostMoves = .listen :: [] := by decide

theorem witness_CoreStepsExactlyInRun :
    (WF (running [2] 0 0 []) ∧ (running [2] 0 0 []).rs = .run) ∧
    (WF State.reset ∧ State.reset.rs = .load) ∧ (WF halted ∧ halted.rs = .halt) ∧
    (WF faulted ∧ faulted.rs = .fault) :=
  ⟨⟨running_wf_one_word, rfl⟩, ⟨reset_wf, rfl⟩, ⟨halted_wf, rfl⟩, ⟨faulted_wf, rfl⟩⟩

/-- A step of each kind of transition that R41 lists. -/
theorem witness_RunStateTransitionsAreComplete :
    nextOf (step { faulted with hostMoves := [.reset] }) =
      some { State.reset with imem := image [2, 7] } ∧
    nextOf (step { State.reset with hostMoves := [.loadChar 0x20#8] }) = some State.reset ∧
    nextOf (step { State.reset with hostMoves := [.start] }) = some (running [] 0 0 []) ∧
    nextOf (step (running [5] 0 0 [])) = some (running [5] 1 0 []) ∧
    nextOf (step (running [5] 1 0 [])) = some { running [5] 1 0 [] with rs := .halt } ∧
    nextOf (step (running [2, 7] 1 0 [(0, 1#8)])) = some faulted ∧
    nextOf (step { halted with hostMoves := [.listen] }) = some halted := by decide

theorem witness_EndedRunsAreAbsorbing :
    halted.rs = .halt ∧ faulted.rs = .fault ∧
    (step { faulted with hostMoves := [.start] } = .next faulted) ∧
    { faulted with hostMoves := [.start] }.hostMoves.head? ≠ some .reset :=
  ⟨rfl, rfl, rfl, by decide⟩

theorem witness_InstructionsTouchOnlyTheirState :
    (exec .increment (running [2] 0 0 [(9, 1#8)]) = .next (running [2] 1 0 [(0, 1#8), (9, 1#8)])) ∧
    Memory.wf (running [2] 0 0 [(9, 1#8)]).tape = true ∧
    (Fin.ofNat Config.tapeLen 65534 : DataPtr) ≠ (running [2] 0 0 [(9, 1#8)]).dp :=
  ⟨rfl, by decide, by decide⟩

theorem witness_InstructionMemoryIsReadOnlyInARun :
    (exec .input (running [5] 0 0 []) = .next (running [5] 1 0 [])) ∧
    (coreStep (running [5] 0 0 []) = .next (running [5] 1 0 [])) ∧
    ∃ t, step { State.reset with hostMoves := [.loadChar 0x2B#8] } = .next t ∧
      t.imem ≠ State.reset.imem := by
  refine ⟨rfl, rfl, _, rfl, ?_⟩
  have hd : Config.imemDepth ≠ some 0 := by
    intro h
    exact absurd (one_word_fits 0 h) (by decide)
  simp [loadChar, loadCharIn, dropHostMove, State.reset, symbolToOpcode, hd, appendOpcode, imemWrite,
    Imem.writeFrom]

theorem witness_OutputIsAppendedInExecutionOrder :
    (coreStep (running [4] 0 3 []) = .next { running [4] 1 3 [] with out := [0#8] }) ∧
    (coreStep (running [4] 1 3 []) = .next { running [4] 1 3 [] with rs := .halt }) := ⟨rfl, rfl⟩

/-- The pointer at both ends of the tape, for the 16-bit forms of `MoveRight` and `MoveLeft`. -/
theorem witness_MoveRightEffect_MoveLeftEffect :
    (running [0] 0 65534 []).dpWord = 0xFFFE#16 ∧ (running [0] 0 65533 []).dpWord ≠ 0xFFFE#16 ∧
    (running [1] 0 0 []).dpWord = 0x0000#16 ∧ (running [1] 0 65534 []).dpWord ≠ 0x0000#16 := by decide

theorem witness_PointerMovesAreInverse :
    (exec .moveRight (running [0] 0 65534 []) = .next (running [0] 1 0 [])) ∧
    (exec .moveLeft (running [0] 1 0 []) = .next (running [0] 2 65534 [])) := ⟨rfl, rfl⟩

theorem witness_IncrementEffect_DecrementEffect :
    Memory.wf (running [2] 0 0 [(0, 255#8), (65534, 1#8)]).tape = true ∧
    Memory.wf (running [3] 0 0 []).tape = true ∧
    (Fin.ofNat Config.tapeLen 65534 : DataPtr) ≠ (running [2] 0 0 []).dp := by decide

theorem witness_CellArithmeticIsInverse :
    Memory.wf (running [2] 0 7 [(7, 255#8)]).tape = true ∧
    (exec .increment (running [2] 0 7 [(7, 255#8)]) = .next (running [2] 1 7 [])) ∧
    (exec .decrement (running [2] 1 7 []) = .next (running [2] 2 7 [(7, 255#8)])) :=
  ⟨by decide, rfl, rfl⟩

/-- Each clause: fall through, taken with a match, taken without one, empty body, last instruction. -/
theorem witness_JumpIfZeroEffect :
    memRead (running [6] 0 0 [(0, 1#8)]).dp (running [6] 0 0 [(0, 1#8)]) ≠ 0#8 ∧
    (memRead (running [6, 3, 7] 0 0 []).dp (running [6, 3, 7] 0 0 []) = 0#8 ∧
      scanForward 0 (running [6, 3, 7] 0 0 []) = some 2) ∧
    scanForward 0 (running [6, 4] 0 0 []) = none ∧
    (0 + 1 < (running [6, 7] 0 0 []).len ∧ instrAt 1 (running [6, 7] 0 0 []) = .jumpIfNonZero) ∧
    0 + 1 = (running [6] 0 0 []).len := by decide

/-- Each clause: fall through, taken with a match, taken without one, empty body, first instruction. -/
theorem witness_JumpIfNonZeroEffect :
    memRead (running [7] 0 0 []).dp (running [7] 0 0 []) = 0#8 ∧
    (memRead (running [6, 3, 7] 2 0 [(0, 9#8)]).dp (running [6, 3, 7] 2 0 [(0, 9#8)]) ≠ 0#8 ∧
      scanBackward 2 (running [6, 3, 7] 2 0 [(0, 9#8)]) = some 0) ∧
    scanBackward 1 (running [2, 7] 1 0 [(0, 1#8)]) = none ∧
    (0 < (running [6, 7] 1 0 [(0, 1#8)]).pc ∧
      instrAt (1 - 1) (running [6, 7] 1 0 [(0, 1#8)]) = .jumpIfZero) ∧
    (running [7] 0 0 [(0, 1#8)]).pc = 0 := by decide

theorem witness_ScanForwardFollowsItsPseudocode :
    (running [6] 0 0 []).len ≤ 1 ∧
    (0 < (running [6] 0 0 []).len ∧ instrAt 0 (running [6] 0 0 []) = .jumpIfZero) ∧
    instrAt 0 (running [7] 0 0 []) = .jumpIfNonZero ∧
    (instrAt 0 (running [2] 0 0 []) ≠ .jumpIfZero ∧ instrAt 0 (running [2] 0 0 []) ≠ .jumpIfNonZero) ∧
    scanForward 0 (running [6, 7] 0 0 []) = some 1 ∧
    (running [6, 7] 1 5 [(5, 1#8)]).imem = (running [6, 7] 0 0 []).imem ∧
    (running [6, 7] 1 5 [(5, 1#8)]).len = (running [6, 7] 0 0 []).len := by decide

theorem witness_ScanBackwardFollowsItsPseudocode :
    instrAt 0 (running [7] 0 0 []) = .jumpIfNonZero ∧ instrAt 0 (running [6] 0 0 []) = .jumpIfZero ∧
    (instrAt 0 (running [2] 0 0 []) ≠ .jumpIfZero ∧ instrAt 0 (running [2] 0 0 []) ≠ .jumpIfNonZero) ∧
    scanBackward 1 (running [6, 7] 0 0 []) = some 0 ∧
    (running [6, 7] 1 5 [(5, 1#8)]).imem = (running [6, 7] 0 0 []).imem := by decide

/-- `667`: the inner pair matches and the outer `[` does not. -/
theorem witness_ScanForwardFindsTheMatch_ScanBackwardFindsTheMatch :
    (running [6, 6, 7] 0 0 []).len ≤ (running [6, 6, 7] 0 0 []).imem.length ∧
    scanForward 1 (running [6, 6, 7] 0 0 []) = some 2 ∧
    scanForward 0 (running [6, 6, 7] 0 0 []) = none ∧
    2 ≤ (running [6, 6, 7] 0 0 []).len ∧ 3 ≤ (running [6, 6, 7] 0 0 []).len ∧
    scanBackward 2 (running [6, 6, 7] 0 0 []) = some 1 := by decide

/-- `667`: the words between index 1 and 2 are none, so they match in the sense of R147. -/
theorem witness_IsForwardMatch : IsForwardMatch (running [6, 6, 7] 0 0 []) 1 2 :=
  ⟨by decide, by decide, by decide, by decide, by
    intro n
    have : imemSegment (1 + 1) 2 (running [6, 6, 7] 0 0 []) = [] := by decide
    simp [this, countInstr]⟩

theorem witness_ScansAreInverse :
    (running [6, 2, 7] 0 0 []).len ≤ (running [6, 2, 7] 0 0 []).imem.length ∧
    0 < (running [6, 2, 7] 0 0 []).len ∧ 2 < (running [6, 2, 7] 0 0 []).len ∧
    instrAt 0 (running [6, 2, 7] 0 0 []) = .jumpIfZero ∧
    instrAt 2 (running [6, 2, 7] 0 0 []) = .jumpIfNonZero ∧
    scanForward 0 (running [6, 2, 7] 0 0 []) = some 2 := by decide

theorem witness_ScansAreBounded :
    0 < (running [6, 7] 0 0 []).len ∧ scanForward 0 (running [6, 7] 0 0 []) = some 1 ∧
    1 < (running [6, 7] 0 0 []).len ∧ scanBackward 1 (running [6, 7] 0 0 []) = some 0 := by decide

/-- `[-]` on a zero cell (S4): one jump, then the halt. -/
theorem witness_BalancedProgramsNeverFault :
    WF (running [6, 3, 7] 0 0 []) ∧ (running [6, 3, 7] 0 0 []).rs = .run ∧
    BalancedProgram (running [6, 3, 7] 0 0 []) ∧
    Ends (running [6, 3, 7] 0 0 []) { running [6, 3, 7] 3 0 [] with rs := .halt } :=
  ⟨by constructor <;> decide, rfl, by unfold BalancedProgram; decide,
    .after rfl (t := running [6, 3, 7] 3 0 []) rfl (.after rfl rfl (.here (.inl rfl)))⟩

theorem witness_MatchedPairIsAWhileLoop :
    (running [6, 3, 7] 0 0 []).len ≤ (running [6, 3, 7] 0 0 []).imem.length ∧
    (running [6, 3, 7] 0 0 []).rs = .run ∧ 0 < (running [6, 3, 7] 0 0 []).len ∧
    instrAt 0 (running [6, 3, 7] 0 0 []) = .jumpIfZero ∧
    scanForward 0 (running [6, 3, 7] 0 0 []) = some 2 ∧ (running [6, 3, 7] 0 0 []).pc = 0 ∧
    (running [6, 3, 7] 2 0 []).pc = 2 := by decide

/-- V16 at index 2: `+[]`. -/
theorem witness_EmptyLoopIsNeverLeft :
    (running [2, 6, 7] 2 0 [(0, 1#8)]).rs = .run ∧ (running [2, 6, 7] 2 0 [(0, 1#8)]).hostMoves = [] ∧
    memRead (running [2, 6, 7] 2 0 [(0, 1#8)]).dp (running [2, 6, 7] 2 0 [(0, 1#8)]) ≠ 0#8 ∧
    0 < (running [2, 6, 7] 2 0 [(0, 1#8)]).pc ∧ 2 < (running [2, 6, 7] 2 0 [(0, 1#8)]).len ∧
    instrAt (2 - 1) (running [2, 6, 7] 2 0 [(0, 1#8)]) = .jumpIfZero ∧
    instrAt 2 (running [2, 6, 7] 2 0 [(0, 1#8)]) = .jumpIfNonZero := by decide

theorem witness_FaultEntryIsPrecise :
    (running [2, 7] 1 0 [(0, 1#8)]).rs = .run ∧
    (coreStep (running [2, 7] 1 0 [(0, 1#8)]) = .next faulted) ∧ faulted.rs = .fault ∧
    instrAt 1 (running [2, 7] 1 0 [(0, 1#8)]) = .jumpIfNonZero ∧
    (nextOf (coreStep (running [6] 0 0 []))).map State.rs = some .fault ∧
    instrAt 0 (running [6] 0 0 []) = .jumpIfZero :=
  ⟨rfl, rfl, rfl, by decide, by decide, by decide⟩

/-- V10 and V8: an unmatched `[` on a non-zero cell, an unmatched `]` on a zero cell. -/
theorem witness_FallThroughNeverFaults :
    ((running [2, 6] 1 0 [(0, 1#8)]).rs = .run ∧ 1 < (running [2, 6] 1 0 [(0, 1#8)]).len ∧
      instrAt 1 (running [2, 6] 1 0 [(0, 1#8)]) = .jumpIfZero ∧
      memRead (running [2, 6] 1 0 [(0, 1#8)]).dp (running [2, 6] 1 0 [(0, 1#8)]) ≠ 0#8) ∧
    (instrAt 0 (running [7] 0 0 []) = .jumpIfNonZero ∧ 0 < (running [7] 0 0 []).len ∧
      memRead (running [7] 0 0 []).dp (running [7] 0 0 []) = 0#8) := by decide

/-- A program of one word, with and without a stale word behind it; and two states with no step. -/
theorem witness_InvisibleWordsHaveNoEffect :
    SameVisible (running [5] 0 0 []) { running [5] 0 0 [] with imem := image [5, 7] } ∧
    (step (running [5] 0 0 []) = .next (running [5] 1 0 [])) ∧
    SameVisible halted { halted with imem := image [2, 7] } ∧ (step halted = .fault .noStepInHalt) :=
  ⟨⟨rfl, by decide, by decide, by decide⟩, rfl, ⟨rfl, by decide, by decide, by decide⟩, rfl⟩

theorem witness_InitialPointerIsUnobservable :
    Rotated (Fin.ofNat Config.tapeLen 65534) (running [5] 0 1 [(1, 7#8)]) (running [5] 0 0 [(0, 7#8)]) ∧
    (coreStep (running [5] 0 1 [(1, 7#8)]) = .next (running [5] 1 1 [(1, 7#8)])) ∧
    Ends (running [5] 0 1 [(1, 7#8)]) { running [5] 1 1 [(1, 7#8)] with rs := .halt } := by
  refine ⟨⟨rfl, by decide, by decide, by decide, fun a => ?_⟩, rfl,
    .after rfl (t := running [5] 1 1 [(1, 7#8)]) rfl (.after rfl rfl (.here (.inl rfl)))⟩
  have h := a.isLt
  have hv : (a + Fin.ofNat Config.tapeLen 65534).val = (a.val + 65534) % 65535 := rfl
  simp only [memRead, running, Memory.read, hv]
  simp only [Config.tapeLen] at h
  grind

end Sys2Proof.Tests
end

/-!
O17. Every step keeps the invariant `WF`: what `WF` comes to in `LOAD` and in `RUN`, one rule for
each state operation, then the core's step, the host's events and the turn (spec/00_scope.md R15).
-/

namespace Sys2Proof.Machine

/-! ## The invariant in the two run states that an event can act in -/

theorem wf_iff_of_load {s : State} (hr : s.rs = .load) :
    WF s ↔ s.pc = 0 ∧ s.dp.val = 0 ∧ s.tape = [] ∧ s.out = [] ∧ s.len ≤ s.imem.length ∧
      s.faultInfo = FaultInfo.zero := by
  constructor
  · intro h
    obtain ⟨hpc, hdp, htape, hout⟩ := h.load_is_fresh hr
    exact ⟨hpc, hdp, htape, hout, h.program_loaded, h.no_record_outside_fault (by simp [hr])⟩
  · rintro ⟨hpc, hdp, htape, hout, hlen, hinfo⟩
    constructor <;> simp_all [Memory.wf, Memory.wfFrom]

theorem wf_iff_of_run {s : State} (hr : s.rs = .run) :
    WF s ↔ Memory.wf s.tape = true ∧ s.pc ≤ s.len ∧ s.len ≤ s.imem.length ∧ s.ldovf = false ∧
      s.faultInfo = FaultInfo.zero := by
  constructor
  · intro h
    exact ⟨h.tape_canonical, h.pc_le_len, h.program_loaded, h.started_untruncated (by simp [hr]),
      h.no_record_outside_fault (by simp [hr])⟩
  · rintro ⟨htape, hpc, hlen, hovf, hinfo⟩
    constructor <;> simp_all

/-! ## One rule for each operation of a running core -/

section Running

variable {s : State} (h : WF s) (hr : s.rs = .run)
include h hr

theorem wf_setDp (p : DataPtr) : WF (setDp p s) :=
  (wf_iff_of_run (s := setDp p s) hr).2 ((wf_iff_of_run hr).1 h)

theorem wf_outAppend (v : CellValue) : WF (outAppend v s) :=
  (wf_iff_of_run (s := outAppend v s) hr).2 ((wf_iff_of_run hr).1 h)

theorem wf_setCurrentCell (v : CellValue) : WF (setCurrentCell v s) := by
  obtain ⟨htape, hrest⟩ := (wf_iff_of_run hr).1 h
  exact (wf_iff_of_run (s := setCurrentCell v s) hr).2 ⟨write_wf htape, hrest⟩

theorem wf_setPc {i : Nat} (hi : i ≤ s.len) : WF (setPc i s) := by
  obtain ⟨htape, -, hrest⟩ := (wf_iff_of_run hr).1 h
  exact (wf_iff_of_run (s := setPc i s) hr).2 ⟨htape, hi, hrest⟩

theorem wf_advance (hpc : s.pc < s.len) : WF (advance s) := by
  obtain ⟨htape, -, hrest⟩ := (wf_iff_of_run hr).1 h
  exact (wf_iff_of_run (s := advance s) hr).2 ⟨htape, hpc, hrest⟩

/-- R110, R111: a move of the pointer, then the advance. -/
theorem wf_advance_setDp (hpc : s.pc < s.len) (p : DataPtr) : WF (advance (setDp p s)) :=
  wf_advance (wf_setDp h hr p) hr hpc

/-- R140, R141: a jump to an index of the program, then the advance past it. -/
theorem wf_advance_setPc {i : Nat} (hi : i < s.len) : WF (advance (setPc i s)) :=
  wf_advance (wf_setPc h hr hi.le) hr hi

theorem wf_enterHalt (hpc : s.pc = s.len) : WF (enterHalt s) := by
  obtain ⟨htape, hle, hlen, hovf, hinfo⟩ := (wf_iff_of_run hr).1 h
  constructor <;> simp_all

/-- R164: the exception is taken at the bracket at `PC` that its direction names (R161). -/
theorem wf_raiseMalformed {dir : FaultDir} (hpc : s.pc < s.len)
    (hbracket : instrAt s.pc s = match dir with
      | .opening => .jumpIfZero
      | .closing => .jumpIfNonZero) : WF (raiseMalformed dir s.pc s) where
  tape_canonical := h.tape_canonical
  pc_le_len := h.pc_le_len
  program_loaded := h.program_loaded
  no_record_outside_fault := by simp
  fault_recorded _ := ⟨rfl, rfl, hpc⟩
  fault_bracket _ := hbracket
  load_is_fresh := by simp
  started_untruncated _ := h.started_untruncated (by simp [hr])
  halted_at_end := by simp

end Running

/-! ## The core's step -/

theorem scanForward_lt_len {s : State} {i j : Nat} (h : scanForward i s = some j) : j < s.len := by
  obtain ⟨hij, hj, -⟩ := scanForwardLoop_some h
  omega

theorem scanBackward_lt {s : State} {i j : Nat} (h : scanBackward j s = some i) : i < j :=
  (scanBackwardLoop_some h).1

theorem exec_keeps_wf {s t : State} (h : WF s) (hr : s.rs = .run) (hpc : s.pc < s.len)
    (ht : exec (instrAt s.pc s) s = .next t) : WF t := by
  obtain ⟨-, rfl⟩ | ⟨-, rfl⟩ | ⟨-, rfl⟩ | ⟨-, rfl⟩ | ⟨-, rfl⟩ | ⟨-, rfl⟩ |
    ⟨hi, ⟨-, rfl⟩ | ⟨j, -, hscan, rfl⟩ | ⟨-, -, rfl⟩⟩ |
    ⟨hi, ⟨-, rfl⟩ | ⟨j, -, hscan, rfl⟩ | ⟨-, -, rfl⟩⟩ := exec_next ht
  · exact wf_advance_setDp h hr hpc _
  · exact wf_advance_setDp h hr hpc _
  · exact wf_advance (wf_setCurrentCell h hr _) hr hpc
  · exact wf_advance (wf_setCurrentCell h hr _) hr hpc
  · exact wf_advance (wf_outAppend h hr _) hr hpc
  · exact wf_advance h hr hpc
  · exact wf_advance h hr hpc
  · exact wf_advance_setPc h hr (scanForward_lt_len hscan)
  · exact wf_raiseMalformed h hr hpc hi
  · exact wf_advance h hr hpc
  · exact wf_advance_setPc h hr ((scanBackward_lt hscan).trans hpc)
  · exact wf_raiseMalformed h hr hpc hi

theorem coreStep_keeps_wf {s t : State} (h : WF s) (ht : coreStep s = .next t) : WF t := by
  obtain ⟨hr, hpc, rfl⟩ | ⟨hr, hpc, hexec⟩ := coreStep_next ht
  · exact wf_enterHalt h hr hpc
  · exact exec_keeps_wf h hr hpc hexec

/-! ## The host's events -/

theorem wf_resetEvent (s : State) : WF (resetEvent s) :=
  (wf_iff_of_load rfl).2 (by simp)

section Host

variable {s : State} (h : WF s)
include h

/-- No field of the invariant speaks of the host's later moves. -/
theorem wf_dropHostMove : WF (dropHostMove s) := by
  cases h
  constructor <;> assumption

theorem wf_setLdovf (hr : s.rs = .load) : WF (setLdovf s) :=
  (wf_iff_of_load (s := setLdovf s) hr).2 ((wf_iff_of_load hr).1 h)

theorem wf_appendOpcode (hr : s.rs = .load) (k : Opcode) : WF (appendOpcode k s) := by
  obtain ⟨hpc, hdp, htape, hout, -, hinfo⟩ := (wf_iff_of_load hr).1 h
  have hlen : (appendOpcode k s).len ≤ (appendOpcode k s).imem.length := by
    simp [writeFrom_length]
  exact (wf_iff_of_load (s := appendOpcode k s) hr).2 ⟨hpc, hdp, htape, hout, hlen, hinfo⟩

theorem wf_loadChar (c : CharCode) : WF (loadChar c s) := by
  unfold loadChar
  obtain ⟨-, heq⟩ | ⟨k, hr, -, -, heq⟩ | ⟨k, hr, -, -, heq⟩ :=
    loadCharIn_cases Config.imemDepth c s <;> rw [heq]
  · exact h
  · exact wf_setLdovf h hr
  · exact wf_appendOpcode h hr k

theorem wf_startEvent : WF (startEvent s) := by
  obtain ⟨hr, hovf, heq⟩ | ⟨-, heq⟩ := startEvent_cases s <;> rw [heq]
  · exact (wf_iff_of_run rfl).2
      ⟨h.tape_canonical, h.pc_le_len, h.program_loaded, hovf,
        h.no_record_outside_fault (by simp [hr])⟩
  · exact h

end Host

/-! ## The turn -/

theorem step_keeps_wf {s t : State} (h : WF s) (ht : step s = .next t) : WF t := by
  obtain ⟨-, hcore⟩ | ⟨-, -, rfl⟩ | ⟨c, -, -, rfl⟩ | ⟨-, -, rfl⟩ | ⟨-, -, -, hcore⟩ |
    ⟨-, -, -, rfl⟩ := step_next ht
  · exact coreStep_keeps_wf h hcore
  · exact wf_resetEvent _
  · exact wf_loadChar (wf_dropHostMove h) c
  · exact wf_startEvent (wf_dropHostMove h)
  · exact coreStep_keeps_wf (wf_dropHostMove h) hcore
  · exact wf_dropHostMove h

/-- Settles O17: every kind of turn keeps `WF`, which holds R15's bound on `PC`; the bounds on `DP`
and on the cells are those of their types. -/
theorem stepKeepsTheInvariant : Obligations.StepKeepsTheInvariant := by
  intro s t h ht
  have hwf : WF t := step_keeps_wf h ht
  exact ⟨hwf, t.dp.isLt, hwf.pc_le_len, fun a => Nat.le_of_lt_succ (memRead a t).isLt⟩

end Sys2Proof.Machine

/-!
O23. The transitions of `RS` (spec/10_state.md R41): what an instruction, a core step and each of the
host's events can do to `RS`, then the table row by row over whose turn it was.
-/

namespace Sys2Proof.Machine

@[simp] theorem instrAt_dropHostMove (i : Nat) (s : State) :
    instrAt i (dropHostMove s) = instrAt i s := rfl

@[simp] theorem loadChar_rs (c : CharCode) (s : State) : (loadChar c s).rs = s.rs := by
  obtain ⟨-, h⟩ | ⟨k, -, -, -, h⟩ | ⟨k, -, -, -, h⟩ := loadCharIn_cases Config.imemDepth c s <;>
    simp [loadChar, h]

/-- R164: an instruction leaves `RS` as it is, unless it is a bracket that takes the exception. -/
theorem exec_rs_cases {i : Instr} {s t : State} (h : exec i s = .next t) :
    t.rs = s.rs ∨ (t.rs = .fault ∧ (i = .jumpIfZero ∨ i = .jumpIfNonZero)) := by
  obtain ⟨hi, rfl⟩ | ⟨hi, rfl⟩ | ⟨hi, rfl⟩ | ⟨hi, rfl⟩ | ⟨hi, rfl⟩ | ⟨hi, rfl⟩ |
    ⟨hi, ⟨-, rfl⟩ | ⟨j, -, -, rfl⟩ | ⟨-, -, rfl⟩⟩ |
    ⟨hi, ⟨-, rfl⟩ | ⟨j, -, -, rfl⟩ | ⟨-, -, rfl⟩⟩ := exec_next h <;> simp [hi]

/-- The rows of R41 whose event is `Step`. -/
theorem coreStep_rs_cases {s t : State} (h : coreStep s = .next t) :
    s.rs = .run ∧
      ((t.rs = .run ∧ s.pc < s.len) ∨
       (t.rs = .halt ∧ s.pc = s.len) ∨
       (t.rs = .fault ∧ s.pc < s.len ∧
         (instrAt s.pc s = .jumpIfZero ∨ instrAt s.pc s = .jumpIfNonZero))) := by
  obtain ⟨hr, hpc, rfl⟩ | ⟨hr, hpc, hexec⟩ := coreStep_next h
  · exact ⟨hr, .inr (.inl ⟨rfl, hpc⟩)⟩
  · obtain hsame | ⟨hfault, hbracket⟩ := exec_rs_cases hexec
    · exact ⟨hr, .inl ⟨hsame.trans hr, hpc⟩⟩
    · exact ⟨hr, .inr (.inr ⟨hfault, hpc, hbracket⟩)⟩

/-- Settles O23: the six kinds of turn, each in the rows of R41 that its event has. -/
theorem runStateTransitionsAreComplete : Obligations.RunStateTransitionsAreComplete := by
  intro s t h
  obtain ⟨hm, hcore⟩ | ⟨ms, hm, rfl⟩ | ⟨c, ms, hm, rfl⟩ | ⟨ms, hm, rfl⟩ | ⟨ms, hm, -, hcore⟩ |
    ⟨ms, hm, hr, rfl⟩ := step_next h
  · obtain ⟨hr, hrow⟩ := coreStep_rs_cases hcore
    simpa [hm, hr] using hrow
  · simp [hm]
  · cases hr : s.rs <;> simp [hm, hr]
  · obtain ⟨hr, hovf, heq⟩ | ⟨hno, heq⟩ := startEvent_cases (dropHostMove s)
    · rw [dropHostMove_rs] at hr
      rw [dropHostMove_ldovf] at hovf
      simp [hm, heq, hr, hovf]
    · rw [dropHostMove_rs, dropHostMove_ldovf] at hno
      cases hr : s.rs <;> simp_all
  · obtain ⟨hr, hrow⟩ := coreStep_rs_cases hcore
    rw [dropHostMove_rs] at hr
    simpa [hm, hr] using hrow
  · cases hrs : s.rs <;> simp_all

end Sys2Proof.Machine

/-!
O26. Instruction memory is read-only in a run (spec/20_memory.md R62): no instruction, no core step
and no host event but `LoadChar` in `LOAD` writes it.
-/

namespace Sys2Proof.Machine

/-- R62: no instruction writes `IMEM` or `LEN`. -/
theorem exec_keeps_program {i : Instr} {s t : State} (h : exec i s = .next t) :
    t.imem = s.imem ∧ t.len = s.len := by
  obtain ⟨-, rfl⟩ | ⟨-, rfl⟩ | ⟨-, rfl⟩ | ⟨-, rfl⟩ | ⟨-, rfl⟩ | ⟨-, rfl⟩ |
    ⟨-, ⟨-, rfl⟩ | ⟨j, -, -, rfl⟩ | ⟨-, -, rfl⟩⟩ |
    ⟨-, ⟨-, rfl⟩ | ⟨j, -, -, rfl⟩ | ⟨-, -, rfl⟩⟩ := exec_next h <;> simp

theorem coreStep_keeps_program {s t : State} (h : coreStep s = .next t) :
    t.imem = s.imem ∧ t.len = s.len := by
  obtain ⟨-, -, rfl⟩ | ⟨-, -, hexec⟩ := coreStep_next h
  · simp
  · exact exec_keeps_program hexec

/-- R91: outside `LOAD` the event `LoadChar` writes no instruction memory. -/
theorem loadChar_imem_of_not_load {s : State} (c : CharCode) (hr : s.rs ≠ .load) :
    (loadChar c s).imem = s.imem := by
  obtain ⟨-, heq⟩ | ⟨k, hload, -⟩ | ⟨k, hload, -⟩ := loadCharIn_cases Config.imemDepth c s
  · rw [loadChar, heq]
  · exact absurd hload hr
  · exact absurd hload hr

@[simp] theorem startEvent_imem (s : State) : (startEvent s).imem = s.imem := by
  obtain ⟨-, -, heq⟩ | ⟨-, heq⟩ := startEvent_cases s <;> rw [heq]

/-- R62: the one step that may write instruction memory is a `LoadChar` in `LOAD`. -/
theorem step_imem_cases {s t : State} (h : step s = .next t) :
    t.imem = s.imem ∨ (s.rs = .load ∧ ∃ c, s.hostMoves.head? = some (.loadChar c)) := by
  obtain ⟨-, hcore⟩ | ⟨ms, -, rfl⟩ | ⟨c, ms, hm, rfl⟩ | ⟨ms, -, rfl⟩ | ⟨ms, -, -, hcore⟩ |
    ⟨ms, -, -, rfl⟩ := step_next h
  · exact .inl (coreStep_keeps_program hcore).1
  · exact .inl (by simp)
  · by_cases hr : s.rs = .load
    · exact .inr ⟨hr, c, by simp [hm]⟩
    · exact .inl (loadChar_imem_of_not_load (s := dropHostMove s) c hr)
  · exact .inl (by simp)
  · exact .inl (coreStep_keeps_program (s := dropHostMove s) hcore).1
  · exact .inl (by simp)

theorem ifetch_eq_of_imem_eq {s t : State} (h : t.imem = s.imem) (i : Nat) :
    ifetch i t = ifetch i s := by
  simp [ifetch, h]

/-- Settles O26: the frame of an instruction, the cases of a turn, and the fetch, which reads
`IMEM` only. -/
theorem instructionMemoryIsReadOnlyInARun : Obligations.InstructionMemoryIsReadOnlyInARun :=
  ⟨fun _ _ _ h => exec_keeps_program h,
    fun _ _ h hne => (step_imem_cases h).resolve_left hne,
    fun _ _ h i => ifetch_eq_of_imem_eq (coreStep_keeps_program h).1 i⟩

end Sys2Proof.Machine

/-!
O27. `OUT` is append-only (spec/20_memory.md R60): what an instruction and a core step append to it,
then the strobe, which is that element.
-/

namespace Sys2Proof.Machine

/-- R130, R28: `Output` appends the cell at `DP`; every other instruction, and the exception, keeps
`OUT`. -/
theorem exec_out_cases {i : Instr} {s t : State} (h : exec i s = .next t) :
    (i = .output ∧ t.out = s.out ++ [memRead s.dp s]) ∨ (i ≠ .output ∧ t.out = s.out) := by
  obtain ⟨hi, rfl⟩ | ⟨hi, rfl⟩ | ⟨hi, rfl⟩ | ⟨hi, rfl⟩ | ⟨hi, rfl⟩ | ⟨hi, rfl⟩ |
    ⟨hi, ⟨-, rfl⟩ | ⟨j, -, -, rfl⟩ | ⟨-, -, rfl⟩⟩ |
    ⟨hi, ⟨-, rfl⟩ | ⟨j, -, -, rfl⟩ | ⟨-, -, rfl⟩⟩ := exec_next h <;> simp [hi, currentCell]

/-- R60: a core step appends the cell at `DP` when it executes an `Output`, and nothing otherwise. -/
theorem coreStep_out {s t : State} (h : coreStep s = .next t) :
    t.out = s.out ++
      (if s.pc < s.len ∧ instrAt s.pc s = .output then some (memRead s.dp s) else none).toList := by
  obtain ⟨-, hpc, rfl⟩ | ⟨-, hpc, hexec⟩ := coreStep_next h
  · simp [hpc]
  · obtain ⟨hi, hout⟩ | ⟨hi, hout⟩ := exec_out_cases hexec <;> simp [hpc, hi, hout]

/-- R36: the strobe is the element that was appended, if one was. -/
theorem outStrobe_of_out_eq_append {s t : State} {o : Option CellValue}
    (h : t.out = s.out ++ o.toList) : outStrobe s t = o := by
  cases o <;> simp [outStrobe, h]

/-- Settles O27: the strobe of a core step is the element that `coreStep_out` says it appended. -/
theorem outputIsAppendedInExecutionOrder : Obligations.OutputIsAppendedInExecutionOrder := by
  intro s t h
  have happend := coreStep_out h
  have hstrobe := outStrobe_of_out_eq_append happend
  exact ⟨by rw [hstrobe]; exact happend, hstrobe⟩

end Sys2Proof.Machine

/-!
O1, O2. The opcode map (spec/30_encoding.md R71) and totality (R73): `decode` and `encode` are inverse
to each other, and every instruction completes in every state.
-/

namespace Sys2Proof

/-- Settles O1: the table is closed data, and its eight rows are evaluated. -/
theorem opcodeMapAsTabulated : Obligations.OpcodeMapAsTabulated := by
  unfold Obligations.OpcodeMapAsTabulated
  decide

@[simp] theorem decode_encode (i : Instr) : decode (encode i) = i := by
  cases i <;> rfl

@[simp] theorem encode_decode (w : Opcode) : encode (decode w) = w := by
  revert w
  decide

theorem encode_eq_iff {i : Instr} {w : Opcode} : encode i = w ↔ i = decode w := by
  constructor
  · rintro rfl
    exact (decode_encode i).symm
  · rintro rfl
    exact encode_decode w

end Sys2Proof

namespace Sys2Proof.Machine

/-! ## Every instruction completes -/

/-- R132: the no-op. -/
theorem exec_input (s : State) : exec .input s = .next (advance s) := rfl

/-- R140: whether it falls through, jumps or takes the exception, a `[` answers a next state. -/
theorem execJumpIfZero_completes (s : State) : ∃ t, execJumpIfZero s = .next t := by
  unfold execJumpIfZero
  split
  · split <;> exact ⟨_, rfl⟩
  · exact ⟨_, rfl⟩

/-- R141: whether it falls through, jumps or takes the exception, a `]` answers a next state. -/
theorem execJumpIfNonZero_completes (s : State) : ∃ t, execJumpIfNonZero s = .next t := by
  unfold execJumpIfNonZero
  split
  · exact ⟨_, rfl⟩
  · split <;> exact ⟨_, rfl⟩

/-- R73: no instruction stops the core. Only the brackets have branches. -/
theorem exec_completes (i : Instr) (s : State) : ∃ t, exec i s = .next t := by
  cases i with
  | jumpIfZero => exact execJumpIfZero_completes s
  | jumpIfNonZero => exact execJumpIfNonZero_completes s
  | _ => exact ⟨_, rfl⟩

/-- Settles O2: uniqueness is that `encode` and `decode` are inverse; every word runs because every
instruction does. -/
theorem everyWordDecodesAndRuns : Obligations.EveryWordDecodesAndRuns :=
  ⟨fun w => ⟨decode w, rfl, encode_decode w, fun _ h => encode_eq_iff.1 h⟩,
    decode_encode,
    fun w s => exec_completes (decode w) s,
    exec_input⟩

end Sys2Proof.Machine

/-!
O3, O5, O6. The load front end (spec/40_loader.md R91, R94, R95): which codes are comments, one rule
for each branch of `LoadChar`, and the sticky flag `LDOVF`, which every turn but a `Reset` keeps.
-/

namespace Sys2Proof

/-- R76: the comments are the codes that are none of the eight symbols. -/
theorem symbolToOpcode_eq_none_iff (c : CharCode) :
    symbolToOpcode c = none ↔
      c ∉ [0x3E#8, 0x3C#8, 0x2B#8, 0x2D#8, 0x2E#8, 0x2C#8, 0x5B#8, 0x5D#8] := by
  constructor
  · intro hnone hmem
    simp only [List.mem_cons, List.not_mem_nil, or_false] at hmem
    obtain rfl | rfl | rfl | rfl | rfl | rfl | rfl | rfl := hmem <;> cases hnone
  · intro hmem
    simp only [List.mem_cons, List.not_mem_nil, or_false, not_or] at hmem
    simp [symbolToOpcode, hmem]

end Sys2Proof

namespace Sys2Proof.Machine

/-! ## One rule for each branch of `LoadChar` -/

section LoadChar

variable {depth : Option Nat} {c : CharCode} {s : State}

theorem loadCharIn_of_not_load (hr : s.rs ≠ .load) : loadCharIn depth c s = s := by
  obtain ⟨-, heq⟩ | ⟨_, hload, -⟩ | ⟨_, hload, -⟩ := loadCharIn_cases depth c s
  · exact heq
  · exact absurd hload hr
  · exact absurd hload hr

theorem loadCharIn_of_comment (hc : symbolToOpcode c = none) : loadCharIn depth c s = s := by
  obtain ⟨-, heq⟩ | ⟨_, -, hk, -⟩ | ⟨_, -, hk, -⟩ := loadCharIn_cases depth c s
  · exact heq
  · cases hc.symm.trans hk
  · cases hc.symm.trans hk

variable {k : Opcode} (hr : s.rs = .load) (hk : symbolToOpcode c = some k)
include hr hk

theorem loadCharIn_of_full (hfull : depth = some s.len) : loadCharIn depth c s = setLdovf s := by
  simp [loadCharIn, hr, hk, hfull]

theorem loadCharIn_of_room (hroom : depth ≠ some s.len) :
    loadCharIn depth c s = appendOpcode k s := by
  simp [loadCharIn, hr, hk, hroom]

end LoadChar

/-- R93: the word appended is fetched at the old `LEN`, and every other index fetches as before. -/
theorem ifetch_appendOpcode (k : Opcode) (s : State) (i : Nat) :
    ifetch i (appendOpcode k s) = if i = s.len then k else ifetch i s :=
  ifetch_imemWrite s.len i k s

/-- Settles O3. -/
theorem commentCodesAreDiscarded : Obligations.CommentCodesAreDiscarded :=
  ⟨symbolToOpcode_eq_none_iff, fun _ _ hc => loadCharIn_of_comment hc⟩

/-- Settles O5: the four branches each by their rule, then the table of the codes. -/
theorem loadCharFollowsItsPseudocode : Obligations.LoadCharFollowsItsPseudocode := by
  intro depth c s
  refine ⟨loadCharIn_of_not_load, fun _ => loadCharIn_of_comment,
    fun _ => loadCharIn_of_full, fun k hr hk hroom => ?stored, rfl,
    rfl, rfl, rfl, rfl, rfl, rfl, rfl, rfl, (symbolToOpcode_eq_none_iff c).2⟩
  case stored =>
    refine ⟨appendOpcode k s, loadCharIn_of_room hr hk hroom, rfl, ?_, fun i hi => ?_⟩
    · simp [ifetch_appendOpcode]
    · simp [ifetch_appendOpcode, hi]

/-! ## The sticky flag -/

theorem startEvent_of_ldovf {s : State} (h : s.ldovf = true) : startEvent s = s := by
  obtain ⟨-, hclear, -⟩ | ⟨-, heq⟩ := startEvent_cases s
  · simp [h] at hclear
  · exact heq

theorem exec_ldovf {i : Instr} {s t : State} (h : exec i s = .next t) : t.ldovf = s.ldovf := by
  obtain ⟨-, rfl⟩ | ⟨-, rfl⟩ | ⟨-, rfl⟩ | ⟨-, rfl⟩ | ⟨-, rfl⟩ | ⟨-, rfl⟩ |
    ⟨-, ⟨-, rfl⟩ | ⟨j, -, -, rfl⟩ | ⟨-, -, rfl⟩⟩ |
    ⟨-, ⟨-, rfl⟩ | ⟨j, -, -, rfl⟩ | ⟨-, -, rfl⟩⟩ := exec_next h <;> simp

theorem coreStep_ldovf {s t : State} (h : coreStep s = .next t) : t.ldovf = s.ldovf := by
  obtain ⟨-, -, rfl⟩ | ⟨-, -, hexec⟩ := coreStep_next h
  · simp
  · exact exec_ldovf hexec

/-- R95: `LoadChar` may set the flag and never clears it. -/
theorem loadChar_keeps_ldovf {s : State} (c : CharCode) (h : s.ldovf = true) :
    (loadChar c s).ldovf = true := by
  obtain ⟨-, heq⟩ | ⟨k, -, -, -, heq⟩ | ⟨k, -, -, -, heq⟩ :=
    loadCharIn_cases Config.imemDepth c s <;> simp [loadChar, heq, h]

/-- R95: of the six kinds of turn, only the event `Reset` clears the flag. -/
theorem step_keeps_ldovf {s t : State} (h : s.ldovf = true) (ht : step s = .next t) :
    t.ldovf = true ∨ s.hostMoves.head? = some .reset := by
  have hdrop : (dropHostMove s).ldovf = true := h
  obtain ⟨-, hcore⟩ | ⟨ms, hm, rfl⟩ | ⟨c, -, -, rfl⟩ | ⟨ms, -, rfl⟩ | ⟨ms, -, -, hcore⟩ |
    ⟨ms, -, -, rfl⟩ := step_next ht
  · exact .inl ((coreStep_ldovf hcore).trans h)
  · exact .inr (by simp [hm])
  · exact .inl (loadChar_keeps_ldovf c hdrop)
  · exact .inl (by rw [startEvent_of_ldovf hdrop, hdrop])
  · exact .inl ((coreStep_ldovf hcore).trans hdrop)
  · exact .inl hdrop

/-- Settles O6: the full branch of `LoadChar`, after which `Start` is ignored; then the flag, which
is sticky until `Reset`. -/
theorem loadOverflowIsRefused : Obligations.LoadOverflowIsRefused := by
  refine ⟨fun n c k s hr hk hn => ?refused, fun _ => startEvent_of_ldovf,
    fun _ _ => step_keeps_ldovf, resetEvent_ldovf⟩
  case refused =>
    rw [loadCharIn_of_full hr hk (congrArg some hn.symm)]
    exact ⟨rfl, startEvent_of_ldovf rfl⟩

end Sys2Proof.Machine

/-!
O21. What a step comes to in `RUN` (spec/41_fetch_dispatch.md R101, R104): the core's step below
`LEN` and at `LEN`, then the turn of a host that listens, which is the core's.
-/

namespace Sys2Proof.Machine

/-- R101: below `LEN` the core's step runs the instruction at `PC`. -/
theorem coreStep_of_pc_lt {s : State} (hr : s.rs = .run) (hpc : s.pc < s.len) :
    coreStep s = exec (instrAt s.pc s) s := by
  have hact : nextAction s = .execute (instrAt s.pc s) := nextAction_execute_iff.2 ⟨hr, hpc, rfl⟩
  simp [coreStep, hact]

/-- R104: at `LEN` the core's step halts. -/
theorem coreStep_of_pc_eq {s : State} (hr : s.rs = .run) (hpc : s.pc = s.len) :
    coreStep s = .next (enterHalt s) := by
  have hact : nextAction s = .halt := nextAction_halt_iff.2 ⟨hr, hpc⟩
  simp [coreStep, hact]

/-- R40: in `RUN` a host that listens leaves the turn to the core, whatever moves come later. -/
theorem step_of_listen_first {s : State} {later : List HostMove} (hr : s.rs = .run)
    (hm : s.hostMoves = .listen :: later) :
    step s = coreStep { s with hostMoves := later } := by
  simp [step, turn, hm, hr, dropHostMove]

/-- Settles O21: whose turn it is, then the core's step at that state; the fetch and the halt test
do not read the host's moves. -/
theorem stepRunsTheDecodedInstruction : Obligations.StepRunsTheDecodedInstruction := by
  intro s hr
  refine ⟨fun hm hpc => ?idleFetch, fun hm hpc => ?idleHalt,
    fun later hm hpc => ?listeningFetch, fun later hm hpc => ?listeningHalt⟩
  case idleFetch => exact (step_of_listening hm).trans (coreStep_of_pc_lt hr hpc)
  case idleHalt => exact (step_of_listening hm).trans (coreStep_of_pc_eq hr hpc)
  case listeningFetch => exact (step_of_listen_first hr hm).trans (coreStep_of_pc_lt hr hpc)
  case listeningHalt => exact (step_of_listen_first hr hm).trans (coreStep_of_pc_eq hr hpc)

end Sys2Proof.Machine

/-!
O28, O29. The pointer moves (spec/42_pointer_moves.md R110, R111): the state after a move, the wrap
of either move on the index and on the 16-bit register, and `k` moves to the right.
-/

namespace Sys2Proof.Machine

theorem exec_moveRight (s : State) :
    exec .moveRight s = .next (advance (setDp (nextPtr s.dp) s)) := rfl

theorem exec_moveLeft (s : State) :
    exec .moveLeft s = .next (advance (setDp (prevPtr s.dp) s)) := rfl

/-- The frame of both moves. -/
theorem advance_setDp_eq (p : DataPtr) (s : State) :
    advance (setDp p s) = { s with dp := p, pc := s.pc + 1 } := rfl

/-- A move of the pointer stores to no cell. -/
@[simp] theorem memRead_advance_setDp (a p : DataPtr) (s : State) :
    memRead a (advance (setDp p s)) = memRead a s := rfl

/-! ## The pointer as a number

With the length of the tape written as a numeral, for `omega`. -/

theorem dataPtr_lt (p : DataPtr) : p.val < 65535 := p.isLt

theorem nextPtr_val_mod (p : DataPtr) : (nextPtr p).val = (p.val + 1) % 65535 := rfl

theorem prevPtr_val_mod (p : DataPtr) : (prevPtr p).val = (p.val + 65534) % 65535 := rfl

/-- R111 writes the wrap with a subtraction; the model adds one less than the length instead. -/
theorem prevPtr_val_int (p : DataPtr) :
    ((prevPtr p).val : Int) = ((p.val : Int) - 1 + 65535) % 65535 := by
  rw [prevPtr_val_mod]
  omega

/-! ## The pointer as a 16-bit register -/

/-- R24: every index of the tape fits 16 bits. -/
theorem dpWord_toNat (s : State) : s.dpWord.toNat = s.dp.val :=
  Nat.mod_eq_of_lt ((dataPtr_lt s.dp).trans (by decide))

theorem dpWord_eq_iff {s : State} {w : BitVec 16} : s.dpWord = w ↔ s.dp.val = w.toNat := by
  rw [← BitVec.toNat_inj, dpWord_toNat]

section Register

variable {s t : State}

/-- R110: to the right of the last cell lies cell 0. -/
theorem dpWord_of_nextPtr_last (ht : t.dp = nextPtr s.dp) (h : s.dpWord = 0xFFFE#16) :
    t.dpWord = 0x0000#16 := by
  have hlast : s.dp.val = 65534 := dpWord_eq_iff.1 h
  exact dpWord_eq_iff.2 (by rw [ht, nextPtr_val_mod, hlast]; rfl)

theorem dpWord_of_nextPtr_not_last (ht : t.dp = nextPtr s.dp) (h : s.dpWord ≠ 0xFFFE#16) :
    t.dpWord = s.dpWord + 1#16 := by
  have hlt := dataPtr_lt s.dp
  have hne : s.dp.val ≠ 65534 := fun hlast => h (dpWord_eq_iff.2 hlast)
  rw [dpWord_eq_iff, ht, nextPtr_val_mod, BitVec.toNat_add, dpWord_toNat, BitVec.toNat_ofNat]
  omega

/-- R111: to the left of cell 0 lies the last cell. -/
theorem dpWord_of_prevPtr_first (ht : t.dp = prevPtr s.dp) (h : s.dpWord = 0x0000#16) :
    t.dpWord = 0xFFFE#16 := by
  have hfirst : s.dp.val = 0 := dpWord_eq_iff.1 h
  exact dpWord_eq_iff.2 (by rw [ht, prevPtr_val_mod, hfirst]; rfl)

theorem dpWord_of_prevPtr_not_first (ht : t.dp = prevPtr s.dp) (h : s.dpWord ≠ 0x0000#16) :
    t.dpWord = s.dpWord - 1#16 := by
  have hlt := dataPtr_lt s.dp
  have hne : s.dp.val ≠ 0 := fun hfirst => h (dpWord_eq_iff.2 hfirst)
  rw [dpWord_eq_iff, ht, prevPtr_val_mod, BitVec.toNat_sub, dpWord_toNat, BitVec.toNat_ofNat]
  omega

end Register

/-! ## Repeated moves -/

theorem execTimes_succ_of_next {i : Instr} {s t : State} (k : Nat) (h : exec i s = .next t) :
    execTimes (k + 1) i s = execTimes k i t := by
  simp [execTimes, h]

/-- `k` moves to the right add `k` to the pointer modulo the tape's length, and change
only `PC` besides. -/
theorem execTimes_moveRight (k : Nat) (s : State) :
    ∃ u, execTimes k .moveRight s = .next u ∧ u = { s with dp := u.dp, pc := s.pc + k } ∧
      u.dp.val = (s.dp.val + k) % 65535 := by
  induction k generalizing s with
  | zero => exact ⟨s, rfl, rfl, (Nat.mod_eq_of_lt (dataPtr_lt s.dp)).symm⟩
  | succ k ih =>
    obtain ⟨u, hrun, hframe, hdp⟩ := ih (advance (setDp (nextPtr s.dp) s))
    refine ⟨u, (execTimes_succ_of_next k (exec_moveRight s)).trans hrun, ?_, ?_⟩
    · rw [hframe, advance_setDp_eq, Nat.add_assoc, Nat.add_comm 1 k]
    · rw [hdp, advance_dp, setDp_dp, nextPtr_val_mod, Nat.mod_add_mod, Nat.add_assoc,
        Nat.add_comm 1 k]

/-- R110: as many moves as the tape has cells lead once around it. -/
theorem execTimes_moveRight_full_circle (s : State) :
    ∃ u, execTimes 65535 .moveRight s = .next u ∧ u.dp = s.dp := by
  obtain ⟨u, hrun, -, hdp⟩ := execTimes_moveRight 65535 s
  have hlt := dataPtr_lt s.dp
  exact ⟨u, hrun, Fin.ext (by omega)⟩

/-- Settles O28: the frame, the pointer as a number and on the register, and the full circle. -/
theorem moveRightEffect : Obligations.MoveRightEffect :=
  ⟨rfl, rfl, fun s =>
    ⟨_, exec_moveRight s, advance_setDp_eq _ s, nextPtr_val_mod s.dp, dpWord_of_nextPtr_last rfl,
      dpWord_of_nextPtr_not_last rfl, fun a => memRead_advance_setDp a _ s,
      execTimes_moveRight_full_circle s⟩⟩

/-- Settles O29: the frame, and the pointer as a number and on the register. -/
theorem moveLeftEffect : Obligations.MoveLeftEffect :=
  ⟨rfl, rfl, fun s =>
    ⟨_, exec_moveLeft s, advance_setDp_eq _ s, prevPtr_val_int s.dp, dpWord_of_prevPtr_first rfl,
      dpWord_of_prevPtr_not_first rfl, fun a => memRead_advance_setDp a _ s⟩⟩

end Sys2Proof.Machine

/-!
O31, O32. Cell arithmetic (spec/43_cell_arith.md R120, R121): both instructions add a constant to the
current cell, so the effect, the frame and the restoring repetition are proved once, for any constant.
-/

namespace Sys2Proof.Machine

/-! ## Two writes to one cell -/

/-- The later of two writes to a cell is the one that lasts. -/
theorem write_write_same {m : List Host.Cell} {a : DataPtr} {v w : CellValue}
    (hm : Memory.wf m = true) :
    Memory.write (Memory.write m a.val v) a.val w = Memory.write m a.val w := by
  have hv : Memory.wf (Memory.write m a.val v) = true := write_wf hm
  refine eq_of_read (write_wf hv) (write_wf hm) fun b => ?_
  rw [read_write hv, read_write hm, read_write hm]
  split <;> rfl

/-- Writing back what a cell holds leaves a canonical tape as it is. -/
theorem write_memRead_self {s : State} (hs : Memory.wf s.tape = true) (a : DataPtr) :
    Memory.write s.tape a.val (memRead a s) = s.tape := by
  refine eq_of_read (write_wf hs) hs fun b => ?_
  rw [read_write hs]
  split
  · next hb => rw [hb, memRead]
  · rfl

/-! ## Adding a constant to the current cell -/

/-- What R120 and R121 share: `d` is added to the current cell, then `PC` advances. -/
def addToCell (d : CellValue) (s : State) : State := advance (setCurrentCell (currentCell s + d) s)

theorem nextCell_eq_add (v : CellValue) : nextCell v = v + 1#8 :=
  BitVec.eq_of_toNat_eq ((nextCell_toNat v).trans (BitVec.toNat_add v 1#8).symm)

/-- Subtracting 1 modulo 256 is adding 255. -/
theorem prevCell_eq_add (v : CellValue) : prevCell v = v + 255#8 :=
  BitVec.eq_of_toNat_eq ((prevCell_toNat v).trans (BitVec.toNat_add v 255#8).symm)

theorem exec_increment (s : State) : exec .increment s = .next (addToCell 1#8 s) := by
  rw [addToCell, ← nextCell_eq_add]
  rfl

theorem exec_decrement (s : State) : exec .decrement s = .next (addToCell 255#8 s) := by
  rw [addToCell, ← prevCell_eq_add]
  rfl

/-- R121 writes the wrap with a subtraction. -/
theorem toNat_add_255_int (v : CellValue) :
    ((v + 255#8).toNat : Int) = ((v.toNat : Int) - 1 + 256) % 256 := by
  rw [BitVec.toNat_add, BitVec.toNat_ofNat]
  omega

/-- The whole state after it: the tape at `DP`, and `PC`. -/
theorem addToCell_eq (d : CellValue) (s : State) :
    addToCell d s =
      { s with tape := Memory.write s.tape s.dp.val (memRead s.dp s + d), pc := s.pc + 1 } := rfl

section Canonical

variable {s : State} (hs : Memory.wf s.tape = true) (d : CellValue)
include hs

theorem addToCell_tape_wf : Memory.wf (addToCell d s).tape = true := write_wf hs

theorem memRead_addToCell (a : DataPtr) :
    memRead a (addToCell d s) = if a = s.dp then memRead s.dp s + d else memRead a s :=
  memRead_setCurrentCell hs

theorem memRead_addToCell_same : memRead s.dp (addToCell d s) = memRead s.dp s + d := by
  rw [memRead_addToCell hs, if_pos rfl]

theorem memRead_addToCell_other {a : DataPtr} (ha : a ≠ s.dp) :
    memRead a (addToCell d s) = memRead a s := by
  rw [memRead_addToCell hs, if_neg ha]

end Canonical

/-! ## Repeated arithmetic -/

section Repeated

variable {i : Instr} {d : CellValue} (hi : ∀ s, exec i s = .next (addToCell d s))
include hi

/-- `k` executions add `k` times the constant, modulo 256. -/
theorem execTimes_of_addToCell (k : Nat) {s : State} (hs : Memory.wf s.tape = true) :
    execTimes k i s = .next { s with
      tape := Memory.write s.tape s.dp.val (memRead s.dp s + BitVec.ofNat 8 k * d)
      pc := s.pc + k } := by
  induction k generalizing s with
  | zero => simp [execTimes, write_memRead_self hs]
  | succ k ih =>
    have hdp : (addToCell d s).dp = s.dp := rfl
    have hsum : memRead s.dp s + d + BitVec.ofNat 8 k * d =
        memRead s.dp s + BitVec.ofNat 8 (k + 1) * d := by
      rw [BitVec.ofNat_add, BitVec.add_mul, BitVec.one_mul, BitVec.add_assoc,
        BitVec.add_comm d]
    rw [execTimes_succ_of_next k (hi s), ih (addToCell_tape_wf hs d), hdp,
      memRead_addToCell_same hs, hsum, addToCell_eq, write_write_same hs, Nat.add_assoc,
      Nat.add_comm 1 k]

/-- R120, R121: 256 executions restore the cell, whatever the constant. -/
theorem execTimes_256_restores_tape {s : State} (hs : Memory.wf s.tape = true) :
    execTimes 256 i s = .next { s with pc := s.pc + 256 } := by
  have hwrap : memRead s.dp s + BitVec.ofNat 8 256 * d = memRead s.dp s := by simp
  rw [execTimes_of_addToCell hi 256 hs, hwrap, write_memRead_self hs]

end Repeated

/-- Settles O31: the constant is 1. -/
theorem incrementEffect : Obligations.IncrementEffect :=
  ⟨rfl, rfl, fun s hs =>
    ⟨addToCell 1#8 s, exec_increment s, addToCell_eq _ s,
      by rw [memRead_addToCell_same hs, BitVec.toNat_add]; rfl,
      fun _ => memRead_addToCell_other hs _, addToCell_tape_wf hs _,
      execTimes_256_restores_tape exec_increment hs⟩⟩

/-- Settles O32: the constant is 255, which is -1 modulo 256. -/
theorem decrementEffect : Obligations.DecrementEffect :=
  ⟨rfl, rfl, fun s hs =>
    ⟨addToCell 255#8 s, exec_decrement s, addToCell_eq _ s,
      by rw [memRead_addToCell_same hs, toNat_add_255_int],
      fun _ => memRead_addToCell_other hs _, addToCell_tape_wf hs _,
      execTimes_256_restores_tape exec_decrement hs⟩⟩

end Sys2Proof.Machine

/-!
O34, O35. Output and input (spec/44_io.md R130, R132): each instruction's rule and what it appends to
`OUT`, which is what the output port shows.
-/

namespace Sys2Proof.Machine

/-- R130: the current cell is appended, then `PC` advances. -/
theorem exec_output (s : State) : exec .output s = .next (advance (outAppend (currentCell s) s)) :=
  rfl

/-- The whole state after it: `OUT` and `PC`. -/
theorem advance_outAppend_eq (v : CellValue) (s : State) :
    advance (outAppend v s) = { s with out := s.out ++ [v], pc := s.pc + 1 } := rfl

/-- R36: the port shows the value that was appended. -/
theorem outStrobe_advance_outAppend (v : CellValue) (s : State) :
    outStrobe s (advance (outAppend v s)) = some v :=
  outStrobe_of_out_eq_append (by simp)

/-- R36: nothing appended, no strobe. -/
theorem outStrobe_advance (s : State) : outStrobe s (advance s) = none :=
  outStrobe_of_out_eq_append (by simp)

/-- A read is of the tape only, so what keeps the tape keeps every cell. -/
theorem memRead_eq_of_tape_eq {s t : State} (h : t.tape = s.tape) (a : DataPtr) :
    memRead a t = memRead a s := by
  rw [memRead, memRead, h]

/-- Settles O34: the appended value is the cell at `DP`, and it is the strobe. -/
theorem outputEffect : Obligations.OutputEffect :=
  ⟨rfl, rfl, fun s =>
    have hstrobe := outStrobe_advance_outAppend (currentCell s) s
    ⟨_, exec_output s, advance_outAppend_eq _ s, hstrobe, hstrobe, memRead_eq_of_tape_eq rfl⟩⟩

/-- Settles O35: `Input` is the advance alone, which appends nothing and keeps the tape. -/
theorem inputEffect : Obligations.InputEffect :=
  ⟨rfl, rfl, fun s => ⟨_, exec_input s, rfl, outStrobe_advance s, memRead_eq_of_tape_eq rfl⟩⟩

end Sys2Proof.Machine

/-!
O36, O37, O38, O39, O48. The loop jumps (spec/45_loop_jumps.md R140, R141, R143, R144, R148): one rule
for each pass of a scan, one for each branch of a bracket, and the obligations from them.
-/

namespace Sys2Proof.Machine

theorem instrAt_eq_of_imem_eq {s t : State} (h : t.imem = s.imem) (i : Nat) :
    instrAt i t = instrAt i s :=
  congrArg decode (ifetch_eq_of_imem_eq h i)

/-! ## The forward scan, one pass at a time -/

/-- R145: the bounds check comes before the read. -/
theorem scanForwardFrom_of_len_le {s : State} {scan : Nat} (level : Nat) (h : s.len ≤ scan) :
    scanForwardFrom scan level s = none := by
  rw [scanForwardFrom, Nat.sub_eq_zero_of_le h, scanForwardLoop]

section ForwardPass

variable {s : State} {scan : Nat} (hscan : scan < s.len)
include hscan

/-- A pass that gets by the bounds check leaves one index less to scan. -/
theorem scanForwardFrom_of_lt_len (level : Nat) :
    scanForwardFrom scan level s = scanForwardLoop s (s.len - (scan + 1) + 1) scan level := by
  rw [scanForwardFrom, Nat.sub_add_eq, Nat.sub_add_cancel (Nat.sub_pos_of_lt hscan)]

theorem scanForwardFrom_of_jumpIfZero (level : Nat) (hi : instrAt scan s = .jumpIfZero) :
    scanForwardFrom scan level s = scanForwardFrom (scan + 1) (level + 1) s := by
  rw [scanForwardFrom_of_lt_len hscan, scanForwardLoop, hi, scanForwardFrom]

theorem scanForwardFrom_zero_of_jumpIfNonZero (hi : instrAt scan s = .jumpIfNonZero) :
    scanForwardFrom scan 0 s = some scan := by
  rw [scanForwardFrom_of_lt_len hscan, scanForwardLoop, hi, if_pos rfl]

theorem scanForwardFrom_succ_of_jumpIfNonZero (level : Nat) (hi : instrAt scan s = .jumpIfNonZero) :
    scanForwardFrom scan (level + 1) s = scanForwardFrom (scan + 1) level s := by
  rw [scanForwardFrom_of_lt_len hscan, scanForwardLoop, hi, if_neg level.succ_ne_zero,
    Nat.add_sub_cancel, scanForwardFrom]

theorem scanForwardFrom_of_not_bracket (level : Nat) (hopen : instrAt scan s ≠ .jumpIfZero)
    (hclose : instrAt scan s ≠ .jumpIfNonZero) :
    scanForwardFrom scan level s = scanForwardFrom (scan + 1) level s := by
  rw [scanForwardFrom_of_lt_len hscan, scanForwardLoop, scanForwardFrom]
  cases hi : instrAt scan s with
  | jumpIfZero => exact absurd hi hopen
  | jumpIfNonZero => exact absurd hi hclose
  | _ => rfl

end ForwardPass

/-- R143: the range of the result, and what stands there. -/
theorem scanForward_some {s : State} {i j : Nat} (h : scanForward i s = some j) :
    i < j ∧ j < s.len ∧ instrAt j s = .jumpIfNonZero := by
  obtain ⟨hij, -, hj⟩ := scanForwardLoop_some h
  exact ⟨hij, scanForward_lt_len h, hj⟩

theorem scanForward_congr {s t : State} (i : Nat) (himem : t.imem = s.imem) (hlen : t.len = s.len) :
    scanForward i t = scanForward i s := by
  rw [scanForward, scanForward, hlen]
  exact scanForwardLoop_congr fun j _ _ => instrAt_eq_of_imem_eq himem j

/-- Settles O38: the bounds check, the four passes, the result, and what the scan reads. -/
theorem scanForwardFollowsItsPseudocode : Obligations.ScanForwardFollowsItsPseudocode :=
  fun _ i => ⟨rfl, fun _ level h => scanForwardFrom_of_len_le level h,
    fun _ level hscan => scanForwardFrom_of_jumpIfZero hscan level,
    fun _ hscan => scanForwardFrom_zero_of_jumpIfNonZero hscan,
    fun _ level hscan => scanForwardFrom_succ_of_jumpIfNonZero hscan level,
    fun _ level hscan => scanForwardFrom_of_not_bracket hscan level,
    fun _ h => scanForward_some h, fun _ => scanForward_congr i⟩

/-! ## The backward scan, one pass at a time -/

section BackwardPass

variable {s : State} {scan : Nat}

theorem scanBackwardLoop_of_jumpIfNonZero (level : Nat) (hi : instrAt scan s = .jumpIfNonZero) :
    scanBackwardLoop s (scan + 1) level = scanBackwardLoop s scan (level + 1) := by
  rw [scanBackwardLoop, hi]

theorem scanBackwardLoop_zero_of_jumpIfZero (hi : instrAt scan s = .jumpIfZero) :
    scanBackwardLoop s (scan + 1) 0 = some scan := by
  rw [scanBackwardLoop, hi, if_pos rfl]

theorem scanBackwardLoop_succ_of_jumpIfZero (level : Nat) (hi : instrAt scan s = .jumpIfZero) :
    scanBackwardLoop s (scan + 1) (level + 1) = scanBackwardLoop s scan level := by
  rw [scanBackwardLoop, hi, if_neg level.succ_ne_zero, Nat.add_sub_cancel]

theorem scanBackwardLoop_of_not_bracket (level : Nat) (hopen : instrAt scan s ≠ .jumpIfZero)
    (hclose : instrAt scan s ≠ .jumpIfNonZero) :
    scanBackwardLoop s (scan + 1) level = scanBackwardLoop s scan level := by
  rw [scanBackwardLoop]
  cases hi : instrAt scan s with
  | jumpIfZero => exact absurd hi hopen
  | jumpIfNonZero => exact absurd hi hclose
  | _ => rfl

end BackwardPass

/-- R144: the range of the result, and what stands there. -/
theorem scanBackward_some {s : State} {i j : Nat} (h : scanBackward j s = some i) :
    i < j ∧ instrAt i s = .jumpIfZero :=
  scanBackwardLoop_some h

theorem scanBackward_congr {s t : State} (j : Nat) (himem : t.imem = s.imem) :
    scanBackward j t = scanBackward j s :=
  scanBackwardLoop_congr fun i _ => instrAt_eq_of_imem_eq himem i

/-- Settles O39: the bounds check, the four passes, the result, and what the scan reads. -/
theorem scanBackwardFollowsItsPseudocode : Obligations.ScanBackwardFollowsItsPseudocode :=
  fun _ j => ⟨rfl, fun _ => rfl,
    fun _ level => scanBackwardLoop_of_jumpIfNonZero level,
    fun _ => scanBackwardLoop_zero_of_jumpIfZero,
    fun _ level => scanBackwardLoop_succ_of_jumpIfZero level,
    fun _ level => scanBackwardLoop_of_not_bracket level,
    fun _ h => scanBackward_some h, fun _ => scanBackward_congr j⟩

/-! ## The scans where a bracket stands at an end of the program, or next to the other one -/

/-- R140: behind the last instruction there is nothing to scan. -/
theorem scanForward_eq_none_of_last {s : State} {i : Nat} (h : i + 1 = s.len) :
    scanForward i s = none :=
  scanForwardFrom_of_len_le 0 h.ge

theorem scanForward_eq_succ {s : State} {i : Nat} (hlt : i + 1 < s.len)
    (hi : instrAt (i + 1) s = .jumpIfNonZero) : scanForward i s = some (i + 1) :=
  scanForwardFrom_zero_of_jumpIfNonZero hlt hi

/-- R141: before the first instruction there is nothing to scan. -/
theorem scanBackward_zero (s : State) : scanBackward 0 s = none := rfl

theorem scanBackward_eq_pred {s : State} {j : Nat} (hpos : 0 < j)
    (hi : instrAt (j - 1) s = .jumpIfZero) : scanBackward j s = some (j - 1) := by
  obtain ⟨i, rfl⟩ := Nat.exists_eq_succ_of_ne_zero hpos.ne'
  exact scanBackwardLoop_zero_of_jumpIfZero hi

/-! ## One rule for each branch of a bracket -/

section Bracket

variable {s : State}

theorem cellIsZero_eq_false (h : memRead s.dp s ≠ 0#8) : cellIsZero s = false :=
  Bool.eq_false_iff.2 fun hz => h ((cellIsZero_iff s).1 hz)

theorem exec_jumpIfZero_of_ne (h : memRead s.dp s ≠ 0#8) :
    exec .jumpIfZero s = .next (advance s) := by
  rw [exec, execJumpIfZero, cellIsZero_eq_false h, if_neg Bool.false_ne_true]

theorem exec_jumpIfZero_of_match {j : Nat} (h : memRead s.dp s = 0#8)
    (hj : scanForward s.pc s = some j) : exec .jumpIfZero s = .next (advance (setPc j s)) := by
  rw [exec, execJumpIfZero, if_pos ((cellIsZero_iff s).2 h), hj]

theorem exec_jumpIfZero_of_no_match (h : memRead s.dp s = 0#8) (hn : scanForward s.pc s = none) :
    exec .jumpIfZero s = .next (raiseMalformed .opening s.pc s) := by
  rw [exec, execJumpIfZero, if_pos ((cellIsZero_iff s).2 h), hn]

theorem exec_jumpIfNonZero_of_eq (h : memRead s.dp s = 0#8) :
    exec .jumpIfNonZero s = .next (advance s) := by
  rw [exec, execJumpIfNonZero, if_pos ((cellIsZero_iff s).2 h)]

theorem exec_jumpIfNonZero_of_match {i : Nat} (h : memRead s.dp s ≠ 0#8)
    (hi : scanBackward s.pc s = some i) :
    exec .jumpIfNonZero s = .next (advance (setPc i s)) := by
  rw [exec, execJumpIfNonZero, cellIsZero_eq_false h, if_neg Bool.false_ne_true, hi]

theorem exec_jumpIfNonZero_of_no_match (h : memRead s.dp s ≠ 0#8)
    (hn : scanBackward s.pc s = none) :
    exec .jumpIfNonZero s = .next (raiseMalformed .closing s.pc s) := by
  rw [exec, execJumpIfNonZero, cellIsZero_eq_false h, if_neg Bool.false_ne_true, hn]

/-- A jump to the instruction before the bracket leads back to the bracket. -/
theorem advance_setPc_pred (hpos : 0 < s.pc) : advance (setPc (s.pc - 1) s) = s := by
  rw [advance, setPc, Nat.sub_add_cancel hpos]

end Bracket

/-- Settles O36: the three branches, then the two scans that the rule names. -/
theorem jumpIfZeroEffect : Obligations.JumpIfZeroEffect := by
  refine ⟨rfl, rfl, fun s => ⟨exec_jumpIfZero_of_ne, fun j hz hj => ?jump,
    exec_jumpIfZero_of_no_match, fun hz hlt hi => ?emptyBody, fun hz hlast => ?lastInstruction⟩⟩
  case jump => exact ⟨exec_jumpIfZero_of_match hz hj, scanForward_some hj⟩
  case emptyBody => exact exec_jumpIfZero_of_match hz (scanForward_eq_succ hlt hi)
  case lastInstruction => exact exec_jumpIfZero_of_no_match hz (scanForward_eq_none_of_last hlast)

/-- Settles O37: the three branches, then the two scans that the rule names. -/
theorem jumpIfNonZeroEffect : Obligations.JumpIfNonZeroEffect := by
  refine ⟨rfl, rfl, fun s => ⟨exec_jumpIfNonZero_of_eq, fun i hnz hi => ?jump,
    exec_jumpIfNonZero_of_no_match, fun hnz hpos hi => ?emptyBody,
    fun hnz hfirst => ?firstInstruction⟩⟩
  case jump => exact ⟨exec_jumpIfNonZero_of_match hnz hi, scanBackward_some hi⟩
  case emptyBody =>
    rw [exec_jumpIfNonZero_of_match hnz (scanBackward_eq_pred hpos hi), advance_setPc_pred hpos]
  case firstInstruction =>
    have hn : scanBackward s.pc s = none := by rw [hfirst, scanBackward_zero]
    exact exec_jumpIfNonZero_of_no_match hnz hn

/-- Settles O48: the core's step is the bracket's branch that makes no scan. -/
theorem fallThroughNeverFaults : Obligations.FallThroughNeverFaults := by
  refine fun s hr hpc => ⟨fun hi hnz => ?opening, fun hi hz => ?closing⟩
  case opening => rw [coreStep_of_pc_lt hr hpc, hi, exec_jumpIfZero_of_ne hnz, advance]
  case closing => rw [coreStep_of_pc_lt hr hpc, hi, exec_jumpIfNonZero_of_eq hz, advance]

end Sys2Proof.Machine

/-!
O47. Fault entry (spec/60_exceptions.md R164): the two ways for an instruction, and so for the core's
step, to enter `FAULT`, each with the whole state after it, and the converse of both.
-/

namespace Sys2Proof.Machine

section EntersFault

variable {s t : State} (hr : s.rs ≠ .fault) (ht : t.rs = .fault)
include hr ht

theorem exec_jumpIfZero_enters_fault (h : exec .jumpIfZero s = .next t) :
    memRead s.dp s = 0#8 ∧ scanForward s.pc s = none ∧ t = raiseMalformed .opening s.pc s := by
  by_cases hz : memRead s.dp s = 0#8
  · cases hn : scanForward s.pc s with
    | none =>
      cases h.symm.trans (exec_jumpIfZero_of_no_match hz hn)
      exact ⟨hz, rfl, rfl⟩
    | some j =>
      cases h.symm.trans (exec_jumpIfZero_of_match hz hn)
      exact absurd ht hr
  · cases h.symm.trans (exec_jumpIfZero_of_ne hz)
    exact absurd ht hr

theorem exec_jumpIfNonZero_enters_fault (h : exec .jumpIfNonZero s = .next t) :
    memRead s.dp s ≠ 0#8 ∧ scanBackward s.pc s = none ∧ t = raiseMalformed .closing s.pc s := by
  by_cases hz : memRead s.dp s = 0#8
  · cases h.symm.trans (exec_jumpIfNonZero_of_eq hz)
    exact absurd ht hr
  · cases hn : scanBackward s.pc s with
    | none =>
      cases h.symm.trans (exec_jumpIfNonZero_of_no_match hz hn)
      exact ⟨hz, rfl, rfl⟩
    | some i =>
      cases h.symm.trans (exec_jumpIfNonZero_of_match hz hn)
      exact absurd ht hr

/-- R161: only a taken bracket whose scan leaves the program leads into `FAULT`, and the state after
it is the one of fault entry. -/
theorem exec_enters_fault {i : Instr} (h : exec i s = .next t) :
    (i = .jumpIfZero ∧ memRead s.dp s = 0#8 ∧ scanForward s.pc s = none ∧
      t = raiseMalformed .opening s.pc s) ∨
    (i = .jumpIfNonZero ∧ memRead s.dp s ≠ 0#8 ∧ scanBackward s.pc s = none ∧
      t = raiseMalformed .closing s.pc s) := by
  obtain hsame | ⟨-, rfl | rfl⟩ := exec_rs_cases h
  · exact absurd (hsame.symm.trans ht) hr
  · exact .inl ⟨rfl, exec_jumpIfZero_enters_fault hr ht h⟩
  · exact .inr ⟨rfl, exec_jumpIfNonZero_enters_fault hr ht h⟩

end EntersFault

/-- R164: the same of the core's step, which fetches the bracket below `LEN`. -/
theorem coreStep_enters_fault {s t : State} (h : coreStep s = .next t) (ht : t.rs = .fault) :
    s.pc < s.len ∧
      ((instrAt s.pc s = .jumpIfZero ∧ memRead s.dp s = 0#8 ∧ scanForward s.pc s = none ∧
        t = raiseMalformed .opening s.pc s) ∨
       (instrAt s.pc s = .jumpIfNonZero ∧ memRead s.dp s ≠ 0#8 ∧ scanBackward s.pc s = none ∧
        t = raiseMalformed .closing s.pc s)) := by
  obtain ⟨-, -, rfl⟩ | ⟨hr, hpc, hexec⟩ := coreStep_next h
  · simp at ht
  · exact ⟨hpc, exec_enters_fault (by simp [hr]) ht hexec⟩

section Taken

variable {s : State} (hr : s.rs = .run) (hpc : s.pc < s.len)
include hr hpc

theorem coreStep_of_unmatched_jumpIfZero (hi : instrAt s.pc s = .jumpIfZero)
    (hz : memRead s.dp s = 0#8) (hn : scanForward s.pc s = none) :
    coreStep s = .next (raiseMalformed .opening s.pc s) := by
  rw [coreStep_of_pc_lt hr hpc, hi, exec_jumpIfZero_of_no_match hz hn]

theorem coreStep_of_unmatched_jumpIfNonZero (hi : instrAt s.pc s = .jumpIfNonZero)
    (hnz : memRead s.dp s ≠ 0#8) (hn : scanBackward s.pc s = none) :
    coreStep s = .next (raiseMalformed .closing s.pc s) := by
  rw [coreStep_of_pc_lt hr hpc, hi, exec_jumpIfNonZero_of_no_match hnz hn]

end Taken

/-- Settles O47: the fault has two ways in, and the bracket at `PC` tells which was taken. -/
theorem faultEntryIsPrecise : Obligations.FaultEntryIsPrecise := by
  refine fun s t hr h => ⟨⟨fun ht => ?condition, ?entry⟩, fun ht hi => ?opening,
    fun ht hi => ?closing⟩
  case condition =>
    obtain ⟨hpc, ⟨hi, hz, hn, -⟩ | ⟨hi, hnz, hn, -⟩⟩ := coreStep_enters_fault h ht
    · exact ⟨hpc, .inl ⟨hi, hz, hn⟩⟩
    · exact ⟨hpc, .inr ⟨hi, hnz, hn⟩⟩
  case entry =>
    rintro ⟨hpc, ⟨hi, hz, hn⟩ | ⟨hi, hnz, hn⟩⟩
    · cases h.symm.trans (coreStep_of_unmatched_jumpIfZero hr hpc hi hz hn)
      rfl
    · cases h.symm.trans (coreStep_of_unmatched_jumpIfNonZero hr hpc hi hnz hn)
      rfl
  case opening =>
    obtain ⟨-, ⟨-, -, -, heq⟩ | ⟨hi', -⟩⟩ := coreStep_enters_fault h ht
    · exact heq
    · simp [hi] at hi'
  case closing =>
    obtain ⟨-, ⟨hi', -⟩ | ⟨-, -, -, heq⟩⟩ := coreStep_enters_fault h ht
    · simp [hi] at hi'
    · exact heq

end Sys2Proof.Machine

/-!
O49. Words of instruction memory at index `LEN` and above (spec/10_state.md section 6): two states
that differ only there fetch, scan and step alike, and every host event keeps the likeness.
-/

namespace Sys2Proof.Machine

/-! ## States that differ only in invisible words -/

/-- `SameVisible` as a replacement of instruction memory that keeps the program. -/
theorem sameVisible_iff {s s' : State} :
    SameVisible s s' ↔ ∃ m, s' = { s with imem := m } ∧ s.len ≤ s.imem.length ∧ s.len ≤ m.length ∧
      s.imem.take s.len = m.take s.len := by
  constructor
  · rintro ⟨hrest, hs, hs', hp⟩
    have hlen : s'.len = s.len := (congrArg State.len hrest :)
    rw [program, program, hlen] at hp
    exact ⟨s'.imem, by rw [← hrest], hs, hs', hp⟩
  · rintro ⟨m, rfl, hs, hm, hp⟩
    exact ⟨rfl, hs, hm, hp⟩

section Alike

variable {s s' : State} (h : SameVisible s s')
include h

theorem SameVisible.len_eq : s'.len = s.len := (congrArg State.len h.rest_equal :)

theorem SameVisible.hostMoves_eq : s'.hostMoves = s.hostMoves :=
  (congrArg State.hostMoves h.rest_equal :)

/-- R27: below `LEN` both fetch the program's word. -/
theorem SameVisible.instrAt_eq {i : Nat} (hi : i < s.len) : instrAt i s' = instrAt i s := by
  have hs : (program s)[i]? = some (ifetch i s) := program_getElem? s i hi h.loaded_left
  have hs' : (program s')[i]? = some (ifetch i s') :=
    program_getElem? s' i (h.len_eq ▸ hi) (h.len_eq ▸ h.loaded_right)
  rw [← h.program_equal, hs, Option.some.injEq] at hs'
  rw [instrAt, instrAt, hs']

/-- R143: the forward scan stops at `LEN`. -/
theorem SameVisible.scanForward_eq (i : Nat) : scanForward i s' = scanForward i s := by
  rw [scanForward, scanForward, h.len_eq]
  exact scanForwardLoop_congr fun j _ hj => h.instrAt_eq (by omega)

/-- R144: the backward scan reads below the bracket only. -/
theorem SameVisible.scanBackward_eq {j : Nat} (hj : j < s.len) :
    scanBackward j s' = scanBackward j s :=
  scanBackwardLoop_congr fun _ hi => h.instrAt_eq (hi.trans hj)

/-- R101: the one word that the choice of the step reads is the one at `PC < LEN`. -/
theorem SameVisible.nextAction_eq : nextAction s' = nextAction s := by
  obtain ⟨m, rfl, -⟩ := sameVisible_iff.1 h
  by_cases hpc : s.pc < s.len
  · simp [nextAction, h.instrAt_eq hpc]
  · simp [nextAction, hpc]

/-- What neither reads nor writes the program keeps the likeness. -/
theorem SameVisible.map {f : State → State}
    (hcomm : ∀ (u : State) (m : List Opcode), f { u with imem := m } = { f u with imem := m })
    (himem : (f s).imem = s.imem) (hlen : (f s).len = s.len) : SameVisible (f s) (f s') := by
  obtain ⟨m, rfl, hwords⟩ := sameVisible_iff.1 h
  exact sameVisible_iff.2 ⟨m, hcomm s m, by rwa [himem, hlen]⟩

end Alike

/-! ## A bracket in two states that give it the same branch

For any relation between states that the branches of the bracket go through. -/

section SameBranch

variable {R : State → State → Prop} {s s' t : State} (hpc : s'.pc = s.pc)
  (hcell : memRead s'.dp s' = memRead s.dp s) (hadvance : R (advance s) (advance s'))
  (hjump : ∀ i, R (advance (setPc i s)) (advance (setPc i s')))
  (hraise : ∀ dir, R (raiseMalformed dir s.pc s) (raiseMalformed dir s.pc s'))
include hpc hcell hadvance hjump hraise

theorem exec_jumpIfZero_same_branch (hscan : scanForward s.pc s' = scanForward s.pc s)
    (ht : exec .jumpIfZero s = .next t) : ∃ t', exec .jumpIfZero s' = .next t' ∧ R t t' := by
  by_cases hz : memRead s.dp s = 0#8
  · cases hj : scanForward s.pc s with
    | some j =>
      cases ht.symm.trans (exec_jumpIfZero_of_match hz hj)
      exact ⟨_, exec_jumpIfZero_of_match (hcell.trans hz) (by rw [hpc, hscan, hj]), hjump j⟩
    | none =>
      cases ht.symm.trans (exec_jumpIfZero_of_no_match hz hj)
      exact ⟨_, exec_jumpIfZero_of_no_match (hcell.trans hz) (by rw [hpc, hscan, hj]),
        by rw [hpc]; exact hraise .opening⟩
  · cases ht.symm.trans (exec_jumpIfZero_of_ne hz)
    exact ⟨_, exec_jumpIfZero_of_ne (hcell ▸ hz), hadvance⟩

theorem exec_jumpIfNonZero_same_branch (hscan : scanBackward s.pc s' = scanBackward s.pc s)
    (ht : exec .jumpIfNonZero s = .next t) : ∃ t', exec .jumpIfNonZero s' = .next t' ∧ R t t' := by
  by_cases hz : memRead s.dp s = 0#8
  · cases ht.symm.trans (exec_jumpIfNonZero_of_eq hz)
    exact ⟨_, exec_jumpIfNonZero_of_eq (hcell.trans hz), hadvance⟩
  · cases hj : scanBackward s.pc s with
    | some j =>
      cases ht.symm.trans (exec_jumpIfNonZero_of_match hz hj)
      exact ⟨_, exec_jumpIfNonZero_of_match (hcell ▸ hz) (by rw [hpc, hscan, hj]), hjump j⟩
    | none =>
      cases ht.symm.trans (exec_jumpIfNonZero_of_no_match hz hj)
      exact ⟨_, exec_jumpIfNonZero_of_no_match (hcell ▸ hz) (by rw [hpc, hscan, hj]),
        by rw [hpc]; exact hraise .closing⟩

end SameBranch

/-! ## The core's step -/

/-- The core stops exactly when no step is enabled: no instruction faults. -/
theorem coreStep_eq_fault_iff {s : State} {f : Fault} :
    coreStep s = .fault f ↔ nextAction s = .stop f := by
  unfold coreStep
  split
  · next hact => simp [hact]
  · next i hact =>
    obtain ⟨t, ht⟩ := exec_completes i s
    simp [hact, ht]
  · next hact => simp [hact]

section CoreStep

variable {s s' : State} (h : SameVisible s s')
include h

/-- Each instruction does the same to the state, and its scan reads below `LEN` only. -/
theorem SameVisible.exec_eq_next {i : Instr} {t : State} (hpc : s.pc < s.len)
    (ht : exec i s = .next t) : ∃ t', exec i s' = .next t' ∧ SameVisible t t' := by
  have hpc' : s'.pc = s.pc := (congrArg State.pc h.rest_equal :)
  have hcell : memRead s'.dp s' = memRead s.dp s := by
    obtain ⟨m, rfl, -⟩ := sameVisible_iff.1 h
    rfl
  have hadvance := h.map (f := advance) (fun _ _ => rfl) rfl rfl
  have hjump := fun j => h.map (f := fun u => advance (setPc j u)) (fun _ _ => rfl) rfl rfl
  have hraise := fun dir => h.map (f := raiseMalformed dir s.pc) (fun _ _ => rfl) rfl rfl
  cases i with
  | jumpIfZero =>
    exact exec_jumpIfZero_same_branch hpc' hcell hadvance hjump hraise (h.scanForward_eq s.pc) ht
  | jumpIfNonZero =>
    exact exec_jumpIfNonZero_same_branch hpc' hcell hadvance hjump hraise (h.scanBackward_eq hpc) ht
  | _ =>
    obtain ⟨m, rfl, hwords⟩ := sameVisible_iff.1 h
    obtain ⟨himem, hlen⟩ := exec_keeps_program ht
    refine ⟨{ t with imem := m }, ?_, sameVisible_iff.2 ⟨m, rfl, by rwa [himem, hlen]⟩⟩
    cases ht
    rfl

theorem SameVisible.coreStep_eq_next {t : State} (ht : coreStep s = .next t) :
    ∃ t', coreStep s' = .next t' ∧ SameVisible t t' := by
  have hact := h.nextAction_eq
  obtain ⟨hr, hpc, rfl⟩ | ⟨hr, hpc, hexec⟩ := coreStep_next ht
  · rw [nextAction_halt_iff.2 ⟨hr, hpc⟩] at hact
    exact ⟨enterHalt s', by rw [coreStep, hact], h.map (fun _ _ => rfl) rfl rfl⟩
  · rw [nextAction_execute_iff.2 ⟨hr, hpc, rfl⟩] at hact
    rw [coreStep, hact]
    exact h.exec_eq_next hpc hexec

theorem SameVisible.coreStep_eq_fault {f : Fault} (hf : coreStep s = .fault f) :
    coreStep s' = .fault f := by
  rw [coreStep_eq_fault_iff] at hf ⊢
  rw [h.nextAction_eq, hf]

end CoreStep

/-! ## The host's events -/

/-- R190: after a `Reset` every word is invisible. -/
theorem sameVisible_resetEvent {s s' : State} (hm : s.hostMoves = s'.hostMoves) :
    SameVisible (resetEvent s) (resetEvent s') :=
  ⟨by rw [resetEvent, resetEvent, hm], Nat.zero_le _, Nat.zero_le _, rfl⟩

theorem startEvent_len (s : State) : (startEvent s).len = s.len := by
  obtain ⟨-, -, heq⟩ | ⟨-, heq⟩ := startEvent_cases s <;> rw [heq]

theorem startEvent_imem_update (s : State) (m : List Opcode) :
    startEvent { s with imem := m } = { startEvent s with imem := m } := by
  obtain ⟨_, _, _, _, _, _, rs, ldovf, _, _⟩ := s
  cases rs <;> cases ldovf <;> rfl

section Host

variable {s s' : State} (h : SameVisible s s')
include h

theorem SameVisible.dropHostMove : SameVisible (dropHostMove s) (dropHostMove s') :=
  h.map (fun _ _ => rfl) rfl rfl

theorem SameVisible.startEvent : SameVisible (startEvent s) (startEvent s') :=
  h.map startEvent_imem_update (startEvent_imem s) (startEvent_len s)

/-- R93: the word is stored right behind the program, whatever stood there. -/
theorem SameVisible.appendOpcode (k : Opcode) :
    SameVisible (appendOpcode k s) (appendOpcode k s') := by
  have hprog : program (Machine.appendOpcode k s) = program (Machine.appendOpcode k s') := by
    rw [program_appendOpcode k s h.loaded_left, h.program_equal,
      program_appendOpcode k s' (h.len_eq ▸ h.loaded_right)]
  obtain ⟨m, rfl, -⟩ := sameVisible_iff.1 h
  exact ⟨rfl, by simp [writeFrom_length], by simp [writeFrom_length], hprog⟩

theorem SameVisible.loadChar (c : CharCode) : SameVisible (loadChar c s) (loadChar c s') := by
  have hrs : s'.rs = s.rs := (congrArg State.rs h.rest_equal :)
  unfold Machine.loadChar
  obtain ⟨hr | hc, heq⟩ | ⟨k, hr, hk, hfull, heq⟩ | ⟨k, hr, hk, hroom, heq⟩ :=
    loadCharIn_cases Config.imemDepth c s <;> rw [heq]
  · rwa [loadCharIn_of_not_load (hrs ▸ hr)]
  · rwa [loadCharIn_of_comment hc]
  · rw [loadCharIn_of_full (hrs.trans hr) hk (h.len_eq ▸ hfull)]
    exact h.map (fun _ _ => rfl) rfl rfl
  · rw [loadCharIn_of_room (hrs.trans hr) hk (h.len_eq ▸ hroom)]
    exact h.appendOpcode k

/-! ## The turn -/

/-- Both hosts make the same move, or leave the turn to cores that look alike. -/
theorem SameVisible.turn :
    (∃ t t', turn s = .host t ∧ turn s' = .host t' ∧ SameVisible t t') ∨
    (∃ t t', turn s = .core t ∧ turn s' = .core t' ∧ SameVisible t t') := by
  have hmoves := h.hostMoves_eq
  have hrs : s'.rs = s.rs := (congrArg State.rs h.rest_equal :)
  have hdrop := h.dropHostMove
  unfold Machine.turn
  rw [hmoves]
  cases hm : s.hostMoves with
  | nil => exact .inr ⟨s, s', rfl, rfl, h⟩
  | cons move later =>
    cases move with
    | reset => exact .inl ⟨_, _, rfl, rfl, sameVisible_resetEvent hdrop.hostMoves_eq.symm⟩
    | loadChar c => exact .inl ⟨_, _, rfl, rfl, hdrop.loadChar c⟩
    | start => exact .inl ⟨_, _, rfl, rfl, hdrop.startEvent⟩
    | listen =>
      rw [hrs]
      cases s.rs with
      | run => exact .inr ⟨_, _, rfl, rfl, hdrop⟩
      | _ => exact .inl ⟨_, _, rfl, rfl, hdrop⟩

end Host

/-- Settles O49: whose turn it is, then the core's step of two states that look alike. -/
theorem invisibleWordsHaveNoEffect : Obligations.InvisibleWordsHaveNoEffect := by
  intro s s' h
  unfold step
  obtain ⟨u, u', hturn, hturn', hsame⟩ | ⟨u, u', hturn, hturn', hsame⟩ := h.turn <;>
    rw [hturn, hturn']
  · refine ⟨fun t ht => ?_, fun f hf => ?_⟩
    · cases ht
      exact ⟨u', rfl, hsame⟩
    · cases hf
  · exact ⟨fun t ht => hsame.coreStep_eq_next ht, fun f hf => hsame.coreStep_eq_fault hf⟩

end Sys2Proof.Machine

/-!
O40, O41, O42. What the scans find (spec/45_loop_jumps.md R147): the nesting depth before each index
of the program, the two scans as searches for the first place where it falls below the depth inside
the bracket, and the structural match in the same terms.
-/

namespace Sys2Proof.Machine

/-! ## The nesting depth -/

/-- How many more `[` than `]` stand in `p`. -/
def netOpen (p : List Opcode) : Int := countInstr .jumpIfZero p - countInstr .jumpIfNonZero p

/-- The nesting depth before index `n` of the program: the counter of R150. -/
def depthAt (s : State) (n : Nat) : Int := netOpen ((program s).take n)

@[simp] theorem netOpen_nil : netOpen [] = 0 := rfl

@[simp] theorem netOpen_append (p q : List Opcode) : netOpen (p ++ q) = netOpen p + netOpen q := by
  simp only [netOpen, countInstr, List.countP_append]
  omega

@[simp] theorem depthAt_zero (s : State) : depthAt s 0 = 0 := rfl

theorem netOpen_singleton_of_jumpIfZero {w : Opcode} (h : decode w = .jumpIfZero) :
    netOpen [w] = 1 := by
  simp [netOpen, countInstr, h]

theorem netOpen_singleton_of_jumpIfNonZero {w : Opcode} (h : decode w = .jumpIfNonZero) :
    netOpen [w] = -1 := by
  simp [netOpen, countInstr, h]

theorem netOpen_singleton_of_not_bracket {w : Opcode} (hopen : decode w ≠ .jumpIfZero)
    (hclose : decode w ≠ .jumpIfNonZero) : netOpen [w] = 0 := by
  simp [netOpen, countInstr, hopen, hclose]

section Depth

variable {s : State} (hloaded : s.len ≤ s.imem.length) {n : Nat} (hn : n < s.len)
include hloaded hn

theorem depthAt_succ : depthAt s (n + 1) = depthAt s n + netOpen [ifetch n s] := by
  rw [depthAt, List.take_add_one, program_getElem? s n hn hloaded, netOpen_append]
  rfl

theorem depthAt_succ_of_jumpIfZero (hi : instrAt n s = .jumpIfZero) :
    depthAt s (n + 1) = depthAt s n + 1 := by
  rw [depthAt_succ hloaded hn, netOpen_singleton_of_jumpIfZero hi]

theorem depthAt_succ_of_jumpIfNonZero (hi : instrAt n s = .jumpIfNonZero) :
    depthAt s (n + 1) = depthAt s n - 1 := by
  rw [depthAt_succ hloaded hn, netOpen_singleton_of_jumpIfNonZero hi]
  rfl

theorem depthAt_succ_of_not_bracket (hopen : instrAt n s ≠ .jumpIfZero)
    (hclose : instrAt n s ≠ .jumpIfNonZero) : depthAt s (n + 1) = depthAt s n := by
  rw [depthAt_succ hloaded hn, netOpen_singleton_of_not_bracket hopen hclose, Int.add_zero]

/-- Only at a `]` does the depth fall, and then by 1. -/
theorem instrAt_of_depthAt_succ_lt (h : depthAt s (n + 1) < depthAt s n) :
    instrAt n s = .jumpIfNonZero := by
  by_contra hclose
  by_cases hopen : instrAt n s = .jumpIfZero
  · have := depthAt_succ_of_jumpIfZero hloaded hn hopen
    omega
  · have := depthAt_succ_of_not_bracket hloaded hn hopen hclose
    omega

/-- Only at a `[` does the depth rise, and then by 1. -/
theorem instrAt_of_depthAt_lt_succ (h : depthAt s n < depthAt s (n + 1)) :
    instrAt n s = .jumpIfZero := by
  by_contra hopen
  by_cases hclose : instrAt n s = .jumpIfNonZero
  · have := depthAt_succ_of_jumpIfNonZero hloaded hn hclose
    omega
  · have := depthAt_succ_of_not_bracket hloaded hn hopen hclose
    omega

end Depth

/-! ## The first index at which the depth falls below a bound -/

/-- From index `a` on, the depth stays at `base` or above up to index `j`, and is below it after. -/
structure DropsAfter (s : State) (base : Int) (a j : Nat) : Prop where
  start_le : a ≤ j
  stays : ∀ n, a ≤ n → n ≤ j → base ≤ depthAt s n
  drops : depthAt s (j + 1) < base

/-- From index `b` back, the depth stays at `base` or above down to index `i + 1`, and is below it
before. -/
structure DropsBefore (s : State) (base : Int) (b i : Nat) : Prop where
  lt_start : i < b
  stays : ∀ n, i < n → n ≤ b → base ≤ depthAt s n
  drops : depthAt s i < base

section Drops

variable {s : State} {base : Int}

/-- Where the depth does not fall below `base` at `a`, the search goes on behind it. -/
theorem dropsAfter_succ_iff {a j : Nat} (ha : base ≤ depthAt s a) (ha' : base ≤ depthAt s (a + 1)) :
    DropsAfter s base a j ↔ DropsAfter s base (a + 1) j := by
  constructor
  · rintro ⟨haj, hstays, hdrops⟩
    have hne : a ≠ j := by
      rintro rfl
      omega
    exact ⟨by omega, fun n hn => hstays n (by omega), hdrops⟩
  · rintro ⟨haj, hstays, hdrops⟩
    refine ⟨by omega, fun n hn hnj => ?_, hdrops⟩
    obtain rfl | hlt := hn.eq_or_lt
    · exact ha
    · exact hstays n hlt hnj

theorem dropsAfter_iff_eq {a j : Nat} (ha : base ≤ depthAt s a) (ha' : depthAt s (a + 1) < base) :
    DropsAfter s base a j ↔ a = j := by
  constructor
  · rintro ⟨haj, hstays, -⟩
    by_contra hne
    have := hstays (a + 1) (by omega) (by omega)
    omega
  · rintro rfl
    refine ⟨le_refl _, fun n hn hna => ?_, ha'⟩
    rwa [Nat.le_antisymm hna hn]

/-- A depth that starts at `base` or above and ends below it drops somewhere. -/
theorem exists_dropsAfter {a b : Nat} (hab : a ≤ b) (ha : base ≤ depthAt s a)
    (hb : depthAt s b < base) : ∃ j < b, DropsAfter s base a j := by
  induction hd : b - a generalizing a with
  | zero =>
    obtain rfl : a = b := by omega
    omega
  | succ d ih =>
    by_cases ha' : base ≤ depthAt s (a + 1)
    · obtain ⟨j, hj, hdrops⟩ := ih (by omega) ha' (by omega)
      exact ⟨j, hj, (dropsAfter_succ_iff ha ha').2 hdrops⟩
    · exact ⟨a, by omega, (dropsAfter_iff_eq ha (by omega)).2 rfl⟩

theorem dropsBefore_succ_iff {b i : Nat} (hb' : base ≤ depthAt s (b + 1))
    (hb : base ≤ depthAt s b) : DropsBefore s base (b + 1) i ↔ DropsBefore s base b i := by
  constructor
  · rintro ⟨hib, hstays, hdrops⟩
    have hne : i ≠ b := by
      rintro rfl
      omega
    exact ⟨by omega, fun n hn hnb => hstays n hn (by omega), hdrops⟩
  · rintro ⟨hib, hstays, hdrops⟩
    refine ⟨by omega, fun n hn hnb => ?_, hdrops⟩
    obtain rfl | hlt := hnb.eq_or_lt
    · exact hb'
    · exact hstays n hn (by omega)

theorem dropsBefore_iff_eq {b i : Nat} (hb' : base ≤ depthAt s (b + 1)) (hb : depthAt s b < base) :
    DropsBefore s base (b + 1) i ↔ b = i := by
  constructor
  · rintro ⟨hib, hstays, -⟩
    by_contra hne
    have := hstays b (by omega) (by omega)
    omega
  · rintro rfl
    refine ⟨Nat.lt_succ_self _, fun n hn hnb => ?_, hb⟩
    rwa [Nat.le_antisymm hnb hn]

/-- A depth that starts below `base` and ends at it or above rises for the last time somewhere. -/
theorem exists_dropsBefore {b : Nat} (h : depthAt s 0 < base) (hb : base ≤ depthAt s b) :
    ∃ i, DropsBefore s base b i := by
  induction b with
  | zero => omega
  | succ b ih =>
    by_cases hb' : base ≤ depthAt s b
    · obtain ⟨i, hdrops⟩ := ih hb'
      exact ⟨i, (dropsBefore_succ_iff hb hb').2 hdrops⟩
    · exact ⟨b, (dropsBefore_iff_eq hb (by omega)).2 rfl⟩

end Drops

/-! ## The scans as searches

`LEVEL` is the depth at `SCAN` above that of the bracket's inside, which stays fixed. -/

section Scans

variable {s : State} (hloaded : s.len ≤ s.imem.length)
include hloaded

theorem scanForwardFrom_eq_some_iff {base : Int} {scan level j : Nat}
    (hlevel : depthAt s scan = base + level) :
    scanForwardFrom scan level s = some j ↔ j < s.len ∧ DropsAfter s base scan j := by
  induction hd : s.len - scan generalizing scan level with
  | zero =>
    rw [scanForwardFrom_of_len_le level (by omega)]
    refine ⟨nofun, fun ⟨hj, hdrops⟩ => ?_⟩
    have := hdrops.start_le
    omega
  | succ d ih =>
    have hscan : scan < s.len := by omega
    have hbase : base ≤ depthAt s scan := by omega
    have hskip : ∀ level' : Nat, depthAt s (scan + 1) = base + level' →
        (scanForwardFrom (scan + 1) level' s = some j ↔ j < s.len ∧ DropsAfter s base scan j) :=
      fun level' hlevel' => by
        rw [ih hlevel' (by omega), dropsAfter_succ_iff hbase (by omega)]
    by_cases hopen : instrAt scan s = .jumpIfZero
    · have hrise := depthAt_succ_of_jumpIfZero hloaded hscan hopen
      rw [scanForwardFrom_of_jumpIfZero hscan level hopen]
      exact hskip (level + 1) (by omega)
    by_cases hclose : instrAt scan s = .jumpIfNonZero
    · have hfall := depthAt_succ_of_jumpIfNonZero hloaded hscan hclose
      cases level with
      | zero =>
        rw [scanForwardFrom_zero_of_jumpIfNonZero hscan hclose,
          dropsAfter_iff_eq hbase (by omega), Option.some.injEq]
        exact ⟨fun h => ⟨h ▸ hscan, h⟩, And.right⟩
      | succ level =>
        rw [scanForwardFrom_succ_of_jumpIfNonZero hscan level hclose]
        exact hskip level (by omega)
    · have hflat := depthAt_succ_of_not_bracket hloaded hscan hopen hclose
      rw [scanForwardFrom_of_not_bracket hscan level hopen hclose]
      exact hskip level (by omega)

theorem scanBackwardLoop_eq_some_iff {base : Int} {beyond level i : Nat} (hbeyond : beyond ≤ s.len)
    (hlevel : depthAt s beyond = base + level) :
    scanBackwardLoop s beyond level = some i ↔ DropsBefore s base beyond i := by
  induction beyond generalizing level with
  | zero => exact ⟨nofun, fun h => absurd h.lt_start (Nat.not_lt_zero i)⟩
  | succ scan ih =>
    have hscan : scan < s.len := hbeyond
    have hbase : base ≤ depthAt s (scan + 1) := by omega
    have hskip : ∀ level' : Nat, depthAt s scan = base + level' →
        (scanBackwardLoop s scan level' = some i ↔ DropsBefore s base (scan + 1) i) :=
      fun level' hlevel' => by
        rw [ih (by omega) hlevel', dropsBefore_succ_iff hbase (by omega)]
    by_cases hclose : instrAt scan s = .jumpIfNonZero
    · have hfall := depthAt_succ_of_jumpIfNonZero hloaded hscan hclose
      rw [scanBackwardLoop_of_jumpIfNonZero level hclose]
      exact hskip (level + 1) (by omega)
    by_cases hopen : instrAt scan s = .jumpIfZero
    · have hrise := depthAt_succ_of_jumpIfZero hloaded hscan hopen
      cases level with
      | zero =>
        rw [scanBackwardLoop_zero_of_jumpIfZero hopen, dropsBefore_iff_eq hbase (by omega),
          Option.some.injEq]
      | succ level =>
        rw [scanBackwardLoop_succ_of_jumpIfZero level hopen]
        exact hskip level (by omega)
    · have hflat := depthAt_succ_of_not_bracket hloaded hscan hopen hclose
      rw [scanBackwardLoop_of_not_bracket level hopen hclose]
      exact hskip level (by omega)

theorem scanForward_eq_some_iff_drops (i j : Nat) :
    scanForward i s = some j ↔ j < s.len ∧ DropsAfter s (depthAt s (i + 1)) (i + 1) j :=
  scanForwardFrom_eq_some_iff hloaded (Int.add_zero _).symm

theorem scanBackward_eq_some_iff_drops (i : Nat) {j : Nat} (hj : j ≤ s.len) :
    scanBackward j s = some i ↔ DropsBefore s (depthAt s j) j i :=
  scanBackwardLoop_eq_some_iff hloaded hj (Int.add_zero _).symm

end Scans

/-! ## The structural match in terms of the depth -/

theorem netOpen_eq_zero_iff (p : List Opcode) :
    netOpen p = 0 ↔ countInstr .jumpIfZero p = countInstr .jumpIfNonZero p := by
  rw [netOpen]
  omega

theorem netOpen_nonneg_iff (p : List Opcode) :
    0 ≤ netOpen p ↔ countInstr .jumpIfNonZero p ≤ countInstr .jumpIfZero p := by
  rw [netOpen]
  omega

theorem netOpen_nonpos_iff (p : List Opcode) :
    netOpen p ≤ 0 ↔ countInstr .jumpIfZero p ≤ countInstr .jumpIfNonZero p := by
  rw [netOpen]
  omega

section Segment

variable (s : State) {a b : Nat}

/-- The depth gained over the first `n` words of a segment. -/
theorem netOpen_take_imemSegment {n : Nat} (hn : a + n ≤ b) :
    netOpen ((imemSegment a b s).take n) = depthAt s (a + n) - depthAt s a := by
  rw [depthAt, List.take_add, netOpen_append, imemSegment, List.take_take, depthAt,
    Nat.min_eq_left (by omega)]
  omega

theorem netOpen_imemSegment (hab : a ≤ b) :
    netOpen (imemSegment a b s) = depthAt s b - depthAt s a := by
  have h := netOpen_take_imemSegment s (a := a) (b := b) (n := b - a) (by omega)
  rwa [imemSegment, List.take_take, Nat.min_self, Nat.add_sub_cancel' hab] at h

theorem imemSegment_length_le : (imemSegment a b s).length ≤ b - a :=
  List.length_take_le _ _

/-- The depth gained over what is left of a segment behind its first `n` words. -/
theorem netOpen_drop_imemSegment {n : Nat} (hn : a + n ≤ b) :
    netOpen ((imemSegment a b s).drop n) = depthAt s b - depthAt s (a + n) := by
  have hsplit := netOpen_append ((imemSegment a b s).take n) ((imemSegment a b s).drop n)
  rw [List.take_append_drop, netOpen_take_imemSegment s hn,
    netOpen_imemSegment s (by omega)] at hsplit
  omega

end Segment

section Match

variable {s : State} (hloaded : s.len ≤ s.imem.length) {i j : Nat}
include hloaded

theorem isForwardMatch_iff_drops :
    IsForwardMatch s i j ↔ j < s.len ∧ DropsAfter s (depthAt s (i + 1)) (i + 1) j := by
  constructor
  · rintro ⟨hij, hj, hclose, hequal, hopen⟩
    rw [← netOpen_eq_zero_iff, netOpen_imemSegment s (a := i + 1) hij] at hequal
    have hfall := depthAt_succ_of_jumpIfNonZero hloaded hj hclose
    refine ⟨hj, hij, fun n hn hnj => ?_, by omega⟩
    obtain ⟨k, rfl⟩ := Nat.exists_eq_add_of_le hn
    have hk := hopen k
    rw [← netOpen_nonneg_iff, netOpen_take_imemSegment s hnj] at hk
    omega
  · rintro ⟨hj, hij, hstays, hdrops⟩
    have hinside : depthAt s (i + 1) ≤ depthAt s j := hstays j hij (le_refl _)
    have hclose : instrAt j s = .jumpIfNonZero :=
      instrAt_of_depthAt_succ_lt hloaded hj (hdrops.trans_le hinside)
    have hfall := depthAt_succ_of_jumpIfNonZero hloaded hj hclose
    have hequal : netOpen (imemSegment (i + 1) j s) = 0 := by
      rw [netOpen_imemSegment s (a := i + 1) hij]
      omega
    refine ⟨hij, hj, hclose, (netOpen_eq_zero_iff _).1 hequal, fun n => ?_⟩
    rw [← netOpen_nonneg_iff]
    by_cases hn : i + 1 + n ≤ j
    · have := hstays (i + 1 + n) (by omega) hn
      rw [netOpen_take_imemSegment s hn]
      omega
    · have hlen := imemSegment_length_le s (a := i + 1) (b := j)
      rw [List.take_of_length_le (by omega), hequal]

theorem isBackwardMatch_iff_drops (hj : j ≤ s.len) :
    IsBackwardMatch s j i ↔ DropsBefore s (depthAt s j) j i := by
  constructor
  · rintro ⟨hij, hopen, hequal, hclosed⟩
    rw [← netOpen_eq_zero_iff, netOpen_imemSegment s (a := i + 1) hij] at hequal
    have hrise := depthAt_succ_of_jumpIfZero hloaded (hij.trans_le hj) hopen
    refine ⟨hij, fun n hn hnj => ?_, by omega⟩
    obtain ⟨k, rfl⟩ := Nat.exists_eq_add_of_le (m := i + 1) hn
    have hk := hclosed k
    rw [← netOpen_nonpos_iff, netOpen_drop_imemSegment s hnj] at hk
    omega
  · rintro ⟨hij, hstays, hdrops⟩
    have hinside : depthAt s j ≤ depthAt s (i + 1) := hstays (i + 1) (Nat.lt_succ_self i) hij
    have hopen : instrAt i s = .jumpIfZero :=
      instrAt_of_depthAt_lt_succ hloaded (hij.trans_le hj) (hdrops.trans_le hinside)
    have hrise := depthAt_succ_of_jumpIfZero hloaded (hij.trans_le hj) hopen
    have hequal : netOpen (imemSegment (i + 1) j s) = 0 := by
      rw [netOpen_imemSegment s (a := i + 1) hij]
      omega
    refine ⟨hij, hopen, (netOpen_eq_zero_iff _).1 hequal, fun n => ?_⟩
    rw [← netOpen_nonpos_iff]
    by_cases hn : i + 1 + n ≤ j
    · have := hstays (i + 1 + n) (by omega) hn
      rw [netOpen_drop_imemSegment s hn]
      omega
    · have hlen := imemSegment_length_le s (a := i + 1) (b := j)
      rw [List.drop_of_length_le (by omega), netOpen_nil]

theorem scanForward_eq_some_iff : scanForward i s = some j ↔ IsForwardMatch s i j := by
  rw [scanForward_eq_some_iff_drops hloaded, isForwardMatch_iff_drops hloaded]

theorem scanBackward_eq_some_iff (hj : j ≤ s.len) :
    scanBackward j s = some i ↔ IsBackwardMatch s j i := by
  rw [scanBackward_eq_some_iff_drops hloaded i hj, isBackwardMatch_iff_drops hloaded hj]

/-- Between a `[` and a `]`, each is where the other's search ends. -/
theorem dropsAfter_iff_dropsBefore (hi : i < s.len) (hj : j < s.len)
    (hopen : instrAt i s = .jumpIfZero) (hclose : instrAt j s = .jumpIfNonZero) :
    DropsAfter s (depthAt s (i + 1)) (i + 1) j ↔ DropsBefore s (depthAt s j) j i := by
  have hrise := depthAt_succ_of_jumpIfZero hloaded hi hopen
  have hfall := depthAt_succ_of_jumpIfNonZero hloaded hj hclose
  constructor
  · rintro ⟨hij, hstays, hdrops⟩
    have hinside := hstays j hij (le_refl _)
    refine ⟨hij, fun n hn hnj => ?_, by omega⟩
    have := hstays n hn hnj
    omega
  · rintro ⟨hij, hstays, hdrops⟩
    have hinside := hstays (i + 1) (Nat.lt_succ_self i) hij
    refine ⟨hij, fun n hn hnj => ?_, by omega⟩
    have := hstays n hn hnj
    omega

end Match

/-- Settles O40: the match is the one index that the scan returns. -/
theorem scanForwardFindsTheMatch : Obligations.ScanForwardFindsTheMatch := by
  intro s i hloaded
  have hiff : ∀ j, scanForward i s = some j ↔ IsForwardMatch s i j :=
    fun j => scanForward_eq_some_iff hloaded
  refine ⟨hiff, fun j j' hj hj' => ?least, ?none⟩
  case least =>
    rw [(hiff j').2 hj', Option.some.injEq] at hj
    exact hj.ge
  case none => simp only [Option.eq_none_iff_forall_ne_some, ne_eq, hiff]

/-- Settles O41: the match is the one index that the scan returns. -/
theorem scanBackwardFindsTheMatch : Obligations.ScanBackwardFindsTheMatch := by
  intro s j hloaded hj
  have hiff : ∀ i, scanBackward j s = some i ↔ IsBackwardMatch s j i :=
    fun i => scanBackward_eq_some_iff hloaded hj
  refine ⟨hiff, fun i i' hi hi' => ?greatest, ?none⟩
  case greatest =>
    rw [(hiff i').2 hi', Option.some.injEq] at hi
    exact hi.le
  case none => simp only [Option.eq_none_iff_forall_ne_some, ne_eq, hiff]

/-- Settles O42: both scans search for the drop of the depth, from its two sides. -/
theorem scansAreInverse : Obligations.ScansAreInverse := by
  intro s i j hloaded hi hj hopen hclose
  rw [scanForward_eq_some_iff_drops hloaded, scanBackward_eq_some_iff_drops hloaded i hj.le,
    dropsAfter_iff_dropsBefore hloaded hi hj hopen hclose]
  exact and_iff_right hj

end Sys2Proof.Machine

/-!
O44. A balanced program never raises `MalformedProgram` (spec/45_loop_jumps.md R150, section 3): its
nesting depth is never negative and ends at 0, so the search of either scan ends at a drop.
-/

namespace Sys2Proof.Machine

/-! ## What balance says of the nesting depth -/

/-- R150: what is left after one instruction is balanced from the counter that it leaves. -/
theorem exists_balancedFrom_of_cons {d : Nat} {w : Opcode} {p : Program}
    (h : balancedFrom d (decode w :: p) = true) :
    ∃ d' : Nat, balancedFrom d' p = true ∧ (d' : Int) = d + netOpen [w] := by
  by_cases hopen : decode w = .jumpIfZero
  · rw [hopen] at h
    exact ⟨d + 1, h, by rw [netOpen_singleton_of_jumpIfZero hopen]; rfl⟩
  by_cases hclose : decode w = .jumpIfNonZero
  · rw [hclose] at h
    cases d with
    | zero => exact nomatch h
    | succ d => exact ⟨d, h, by rw [netOpen_singleton_of_jumpIfNonZero hclose]; omega⟩
  · refine ⟨d, ?_, by rw [netOpen_singleton_of_not_bracket hopen hclose, Int.add_zero]⟩
    cases hw : decode w <;> rw [hw] at h
    case jumpIfZero => exact absurd hw hopen
    case jumpIfNonZero => exact absurd hw hclose
    all_goals simpa only [balancedFrom] using h

theorem netOpen_of_balancedFrom {d : Nat} {p : List Opcode}
    (h : balancedFrom d (p.map decode) = true) :
    d + netOpen p = 0 ∧ ∀ n, 0 ≤ d + netOpen (p.take n) := by
  induction p generalizing d with
  | nil =>
    have hd : d = 0 := by simpa [balancedFrom] using h
    simp [hd]
  | cons w p ih =>
    obtain ⟨d', hrest, hd'⟩ := exists_balancedFrom_of_cons h
    obtain ⟨hend, hnonneg⟩ := ih hrest
    have hcons : ∀ q, netOpen (w :: q) = netOpen [w] + netOpen q := netOpen_append [w]
    refine ⟨by rw [hcons]; omega, fun n => ?_⟩
    cases n with
    | zero => simp
    | succ n =>
      have := hnonneg n
      rw [List.take_succ_cons, hcons]
      omega

section Balanced

variable {s : State} (hbal : BalancedProgram s)
include hbal

theorem depthAt_nonneg (n : Nat) : 0 ≤ depthAt s n := by
  have h := (netOpen_of_balancedFrom hbal).2 n
  rwa [Nat.cast_zero, Int.zero_add] at h

theorem depthAt_len : depthAt s s.len = 0 := by
  have h := (netOpen_of_balancedFrom hbal).1
  have htake : (program s).take s.len = program s := by
    rw [program, List.take_take, Nat.min_self]
  rwa [Nat.cast_zero, Int.zero_add, ← htake] at h

/-! ## Both scans find a match -/

variable (hloaded : s.len ≤ s.imem.length) {i : Nat} (hi : i < s.len)
include hloaded hi

theorem scanForward_ne_none_of_balanced (hopen : instrAt i s = .jumpIfZero) :
    scanForward i s ≠ none := by
  have hrise := depthAt_succ_of_jumpIfZero hloaded hi hopen
  have hstart := depthAt_nonneg hbal i
  have hend := depthAt_len hbal
  obtain ⟨j, hj, hdrops⟩ := exists_dropsAfter (base := depthAt s (i + 1)) hi le_rfl (by omega)
  simp [(scanForward_eq_some_iff_drops hloaded i j).2 ⟨hj, hdrops⟩]

theorem scanBackward_ne_none_of_balanced (hclose : instrAt i s = .jumpIfNonZero) :
    scanBackward i s ≠ none := by
  have hfall := depthAt_succ_of_jumpIfNonZero hloaded hi hclose
  have hafter := depthAt_nonneg hbal (i + 1)
  obtain ⟨j, hdrops⟩ :=
    exists_dropsBefore (base := depthAt s i) (by rw [depthAt_zero]; omega) le_rfl
  simp [(scanBackward_eq_some_iff_drops hloaded j hi.le).2 hdrops]

end Balanced

/-! ## The core's step and the run -/

theorem balancedProgram_of_coreStep {s t : State} (hbal : BalancedProgram s)
    (ht : coreStep s = .next t) : BalancedProgram t := by
  obtain ⟨himem, hlen⟩ := coreStep_keeps_program ht
  rwa [BalancedProgram, program, himem, hlen]

theorem coreStep_rs_of_balanced {s t : State} (hloaded : s.len ≤ s.imem.length)
    (hbal : BalancedProgram s) (ht : coreStep s = .next t) : t.rs = .run ∨ t.rs = .halt := by
  obtain ⟨-, ⟨hrun, -⟩ | ⟨hhalt, -⟩ | ⟨hfault, -⟩⟩ := coreStep_rs_cases ht
  · exact .inl hrun
  · exact .inr hhalt
  · obtain ⟨hpc, ⟨hopen, -, hnone, -⟩ | ⟨hclose, -, hnone, -⟩⟩ := coreStep_enters_fault ht hfault
    · exact absurd hnone (scanForward_ne_none_of_balanced hbal hloaded hpc hopen)
    · exact absurd hnone (scanBackward_ne_none_of_balanced hbal hloaded hpc hclose)

/-- R15: where `PC <= LEN`, a core in `RUN` has a step. -/
theorem exists_coreStep_of_run {s : State} (hr : s.rs = .run) (hpc : s.pc ≤ s.len) :
    ∃ t, coreStep s = .next t := by
  obtain heq | hlt := hpc.eq_or_lt
  · exact ⟨_, coreStep_of_pc_eq hr heq⟩
  · rw [coreStep_of_pc_lt hr hlt]
    exact exec_completes _ s

/-- The invariant of the run: `WF`, a balanced program, and no fault so far. -/
theorem ends_halt_of_balanced {s e : State} (hends : Ends s e) (h : WF s)
    (hbal : BalancedProgram s) (hr : s.rs = .run ∨ s.rs = .halt) : e.rs = .halt := by
  induction hends with
  | here hend =>
    obtain hrun | hhalt := hr
    · simp [hrun] at hend
    · exact hhalt
  | after _ ht _ ih =>
    exact ih (coreStep_keeps_wf h ht) (balancedProgram_of_coreStep hbal ht)
      (coreStep_rs_of_balanced h.program_loaded hbal ht)

/-- Settles O44: the core's step of a balanced program, then the induction along the run. -/
theorem balancedProgramsNeverFault : Obligations.BalancedProgramsNeverFault := by
  refine ⟨fun s h hr hbal => ?step, fun s e h hr hbal hends => ?run⟩
  case step =>
    obtain ⟨t, ht⟩ := exists_coreStep_of_run hr h.pc_le_len
    exact ⟨t, ht, coreStep_rs_of_balanced h.program_loaded hbal ht,
      balancedProgram_of_coreStep hbal ht⟩
  case run => exact ends_halt_of_balanced hends h hbal (.inl hr)

end Sys2Proof.Machine

/-!
O50. Where on the circular tape a run starts (spec/92_eei_decisions.md D1): one rule for each state
operation on turned states, then the instructions, the core's step and the run.
-/

namespace Sys2Proof.Machine

/-! ## Turned states -/

theorem nextPtr_add (p k : DataPtr) : nextPtr (p + k) = nextPtr p + k := by
  ext
  simp only [nextPtr_val, Fin.val_add, Nat.mod_add_mod, Nat.add_right_comm]

theorem prevPtr_add (p k : DataPtr) : prevPtr (p + k) = prevPtr p + k := by
  ext
  simp only [prevPtr_val, Fin.val_add, Nat.mod_add_mod, Nat.add_right_comm]

/-- `Rotated` as a replacement of the pointer and the tape. -/
theorem rotated_iff {k : DataPtr} {s s' : State} :
    Rotated k s s' ↔ ∃ m, s' = { s with dp := s.dp + k, tape := m } ∧ Memory.wf s.tape = true ∧
      Memory.wf m = true ∧ ∀ a : DataPtr, Memory.read m (a + k).val = Memory.read s.tape a.val := by
  constructor
  · rintro ⟨hrest, hs, hs', hdp, hcells⟩
    exact ⟨s'.tape, by rw [← hdp, ← hrest], hs, hs', hcells⟩
  · rintro ⟨m, rfl, hs, hm, hcells⟩
    exact ⟨rfl, hs, hm, rfl, hcells⟩

section Turned

variable {k : DataPtr} {s s' : State} (h : Rotated k s s')
include h

/-- The current cell of the one is the current cell of the other. -/
theorem Rotated.currentCell_eq : currentCell s' = currentCell s := by
  rw [currentCell, h.pointer_turned, h.cells_turned, currentCell]

/-! ## One rule for each operation -/

/-- What neither reads nor writes the pointer and the tape keeps the turn. -/
theorem Rotated.map {f : State → State}
    (hcomm : ∀ (u : State) (p : DataPtr) (m : List Host.Cell),
      f { u with dp := p, tape := m } = { f u with dp := p, tape := m }) :
    Rotated k (f s) (f s') := by
  obtain ⟨m, rfl, hturned⟩ := rotated_iff.1 h
  have hf : f s = { f s with dp := s.dp, tape := s.tape } := hcomm s s.dp s.tape
  have hdp : (f s).dp = s.dp := (congrArg State.dp hf :)
  have htape : (f s).tape = s.tape := (congrArg State.tape hf :)
  exact rotated_iff.2 ⟨m, by rw [hcomm, hdp], by rwa [htape]⟩

theorem Rotated.advance : Rotated k (advance s) (advance s') := h.map fun _ _ _ => rfl

theorem Rotated.setPc (i : Nat) : Rotated k (setPc i s) (setPc i s') := h.map fun _ _ _ => rfl

theorem Rotated.enterHalt : Rotated k (enterHalt s) (enterHalt s') := h.map fun _ _ _ => rfl

theorem Rotated.raiseMalformed (dir : FaultDir) (i : Nat) :
    Rotated k (raiseMalformed dir i s) (raiseMalformed dir i s') := h.map fun _ _ _ => rfl

theorem Rotated.outAppend (v : CellValue) : Rotated k (outAppend v s) (outAppend v s') :=
  h.map fun _ _ _ => rfl

theorem Rotated.setDp {p p' : DataPtr} (hp : p' = p + k) : Rotated k (setDp p s) (setDp p' s') := by
  obtain ⟨m, rfl, hturned⟩ := rotated_iff.1 h
  exact rotated_iff.2 ⟨m, by rw [hp]; rfl, hturned⟩

theorem Rotated.setCurrentCell (v : CellValue) :
    Rotated k (setCurrentCell v s) (setCurrentCell v s') := by
  have hcells : ∀ a : DataPtr, memRead (a + k) (Machine.setCurrentCell v s') =
      memRead a (Machine.setCurrentCell v s) := fun a => by
    rw [memRead_setCurrentCell h.right_canonical, memRead_setCurrentCell h.left_canonical,
      h.pointer_turned, h.cells_turned]
    simp only [add_left_inj]
  obtain ⟨m, rfl, hs, hm, -⟩ := rotated_iff.1 h
  exact rotated_iff.2 ⟨_, rfl, write_wf hs, write_wf hm, hcells⟩

theorem Rotated.addToCell (d : CellValue) : Rotated k (addToCell d s) (addToCell d s') := by
  rw [Machine.addToCell, Machine.addToCell, h.currentCell_eq]
  exact (h.setCurrentCell _).advance

/-! ## The instructions, the core's step and the run -/

theorem Rotated.scanForward_eq (i : Nat) : scanForward i s' = scanForward i s := by
  obtain ⟨m, rfl, -⟩ := rotated_iff.1 h
  exact scanForward_congr i rfl rfl

theorem Rotated.scanBackward_eq (j : Nat) : scanBackward j s' = scanBackward j s := by
  obtain ⟨m, rfl, -⟩ := rotated_iff.1 h
  exact scanBackward_congr j rfl

/-- Each instruction does the same at the cells that correspond. -/
theorem Rotated.exec_next {i : Instr} {t : State} (ht : exec i s = .next t) :
    ∃ t', exec i s' = .next t' ∧ Rotated k t t' := by
  have hpc : s'.pc = s.pc := (congrArg State.pc h.rest_equal :)
  have hjump := fun j => (h.setPc j).advance
  have hraise := fun dir => h.raiseMalformed dir s.pc
  cases i with
  | moveRight =>
    have hp : nextPtr s'.dp = nextPtr s.dp + k := by rw [h.pointer_turned, nextPtr_add]
    cases ht
    exact ⟨_, exec_moveRight s', (h.setDp hp).advance⟩
  | moveLeft =>
    have hp : prevPtr s'.dp = prevPtr s.dp + k := by rw [h.pointer_turned, prevPtr_add]
    cases ht
    exact ⟨_, exec_moveLeft s', (h.setDp hp).advance⟩
  | increment =>
    cases ht.symm.trans (exec_increment s)
    exact ⟨_, exec_increment s', h.addToCell _⟩
  | decrement =>
    cases ht.symm.trans (exec_decrement s)
    exact ⟨_, exec_decrement s', h.addToCell _⟩
  | output =>
    cases ht
    refine ⟨_, exec_output s', ?_⟩
    rw [h.currentCell_eq]
    exact (h.outAppend _).advance
  | input =>
    cases ht
    exact ⟨_, exec_input s', h.advance⟩
  | jumpIfZero =>
    exact exec_jumpIfZero_same_branch hpc h.currentCell_eq h.advance hjump hraise
      (h.scanForward_eq s.pc) ht
  | jumpIfNonZero =>
    exact exec_jumpIfNonZero_same_branch hpc h.currentCell_eq h.advance hjump hraise
      (h.scanBackward_eq s.pc) ht

theorem Rotated.coreStep_next {t : State} (ht : coreStep s = .next t) :
    ∃ t', coreStep s' = .next t' ∧ Rotated k t t' := by
  obtain ⟨hr, hpc, rfl⟩ | ⟨hr, hpc, hexec⟩ := Machine.coreStep_next ht
  · have hhalt : coreStep s' = .next (Machine.enterHalt s') := by
      obtain ⟨m, rfl, -⟩ := rotated_iff.1 h
      exact coreStep_of_pc_eq hr hpc
    exact ⟨_, hhalt, h.enterHalt⟩
  · have hrun : coreStep s' = exec (instrAt s.pc s) s' := by
      obtain ⟨m, rfl, -⟩ := rotated_iff.1 h
      exact coreStep_of_pc_lt hr hpc
    rw [hrun]
    exact h.exec_next hexec

end Turned

/-- The end of a run is turned as its start is. -/
theorem ends_of_rotated {k : DataPtr} {s e : State} (hends : Ends s e) {s' : State}
    (h : Rotated k s s') : ∃ e', Ends s' e' ∧ Rotated k e e' := by
  induction hends generalizing s' with
  | here hend =>
    have hrs := (congrArg State.rs h.rest_equal :)
    exact ⟨s', .here (by rwa [← hrs] at hend), h⟩
  | after hr ht _ ih =>
    obtain ⟨t', ht', hturned⟩ := h.coreStep_next ht
    obtain ⟨e', hends', he'⟩ := ih hturned
    exact ⟨e', .after ((congrArg State.rs h.rest_equal :).trans hr) ht' hends', he'⟩

/-- Settles O50: the core's step and the run of turned states; `OUT`, `RS` and the fault record are
not turned. -/
theorem initialPointerIsUnobservable : Obligations.InitialPointerIsUnobservable := by
  refine fun k s s' h => ⟨fun t ht => h.coreStep_next ht, fun e hends => ?_⟩
  obtain ⟨e', hends', he'⟩ := ends_of_rotated hends h
  exact ⟨e', hends', he', (congrArg State.out he'.rest_equal :),
    (congrArg State.rs he'.rest_equal :), (congrArg State.faultInfo he'.rest_equal :)⟩

end Sys2Proof.Machine

/-!
O4, O8, O9. Printing and loading (spec/30_encoding.md R78, spec/40_loader.md R92, R93): a symbol and
its opcode determine each other, so a text loads as its printed symbols do, in order.
-/

namespace Sys2Proof

/-! ## Symbols and opcodes -/

theorem symbolToOpcode_sourceSymbol (i : Instr) :
    symbolToOpcode (sourceSymbol i) = some (encode i) := by
  cases i <;> rfl

/-- R75: each opcode has one symbol. -/
theorem sourceSymbol_of_symbolToOpcode {c : CharCode} {k : Opcode} (h : symbolToOpcode c = some k) :
    sourceSymbol (decode k) = c := by
  by_cases hc : c ∈ [0x3E#8, 0x3C#8, 0x2B#8, 0x2D#8, 0x2E#8, 0x2C#8, 0x5B#8, 0x5D#8]
  · simp only [List.mem_cons, List.not_mem_nil, or_false] at hc
    obtain rfl | rfl | rfl | rfl | rfl | rfl | rfl | rfl := hc <;> cases h <;> rfl
  · rw [(symbolToOpcode_eq_none_iff c).2 hc] at h
    cases h

theorem loadText_cons_of_comment {c : CharCode} (h : symbolToOpcode c = none) (t : List CharCode) :
    loadText (c :: t) = loadText t :=
  List.filterMap_cons_none h

theorem loadText_cons_of_symbol {c : CharCode} {k : Opcode} (h : symbolToOpcode c = some k)
    (t : List CharCode) : loadText (c :: t) = k :: loadText t :=
  List.filterMap_cons_some h

theorem loadText_printText (p : List Opcode) : loadText (printText p) = p := by
  induction p with
  | nil => rfl
  | cons w p ih =>
    have hw : symbolToOpcode (sourceSymbol (decode w)) = some w := by
      rw [symbolToOpcode_sourceSymbol, encode_decode]
    rw [printText, List.map_cons, loadText_cons_of_symbol hw, ← printText, ih]

theorem printText_loadText (t : List CharCode) :
    printText (loadText t) = t.filter fun c => (symbolToOpcode c).isSome := by
  induction t with
  | nil => rfl
  | cons c t ih =>
    cases hc : symbolToOpcode c with
    | none => rw [loadText_cons_of_comment hc, ih, List.filter_cons_of_neg (by simp [hc])]
    | some k =>
      rw [loadText_cons_of_symbol hc, printText, List.map_cons, ← printText, ih,
        sourceSymbol_of_symbolToOpcode hc, List.filter_cons_of_pos (by simp [hc])]

/-- Settles O4. -/
theorem printedProgramLoadsBack : Obligations.PrintedProgramLoadsBack :=
  ⟨loadText_printText, printText_loadText⟩

end Sys2Proof

namespace Sys2Proof.Machine

/-! ## What a text loads as -/

/-- R94: the comments of a text change nothing, so the text loads as its printed symbols. -/
theorem loadChars_printText_loadText (t : List CharCode) (s : State) :
    loadChars (printText (loadText t)) s = loadChars t s := by
  rw [printText_loadText]
  induction t generalizing s with
  | nil => rfl
  | cons c t ih =>
    cases hc : symbolToOpcode c with
    | none =>
      rw [List.filter_cons_of_neg (by simp [hc]), ih, loadChars_cons, loadChar,
        loadCharIn_of_comment hc]
    | some k => rw [List.filter_cons_of_pos (by simp [hc]), loadChars_cons, loadChars_cons, ih]

/-- Settles O9. -/
theorem commentsNeverMatter : Obligations.CommentsNeverMatter := by
  intro t₁ t₂ h s
  rw [← loadChars_printText_loadText t₁, h, loadChars_printText_loadText]

/-- R93: where one more word fits, a symbol is appended. -/
theorem loadChar_of_symbol {c : CharCode} {k : Opcode} {s : State} (hr : s.rs = .load)
    (hc : symbolToOpcode c = some k) {n : Nat} (hn : s.len < n)
    (hfits : Config.Fits Config.imemDepth n) : loadChar c s = appendOpcode k s :=
  loadCharIn_of_room hr hc fun hfull => absurd (hfits s.len hfull) hn.not_ge

/-- A text that fits is loaded behind the program as its instruction symbols in order. -/
theorem loadChars_of_fits {t : List CharCode} {s : State} (hr : s.rs = .load)
    (hloaded : s.len ≤ s.imem.length)
    (hfits : Config.Fits Config.imemDepth (s.len + (loadText t).length)) :
    ∃ m, loadChars t s = { s with imem := m, len := s.len + (loadText t).length } ∧
      program (loadChars t s) = program s ++ loadText t := by
  induction t generalizing s with
  | nil => exact ⟨s.imem, rfl, (List.append_nil _).symm⟩
  | cons c t ih =>
    cases hc : symbolToOpcode c with
    | none =>
      rw [loadText_cons_of_comment hc] at hfits ⊢
      rw [loadChars_cons, loadChar, loadCharIn_of_comment hc]
      exact ih hr hloaded hfits
    | some k =>
      rw [loadText_cons_of_symbol hc, List.length_cons] at hfits ⊢
      rw [loadChars_cons, loadChar_of_symbol hr hc (by omega) hfits]
      obtain ⟨m, heq, hprog⟩ := ih (s := appendOpcode k s) hr (by simp [writeFrom_length])
        (by rwa [appendOpcode_len, Nat.add_assoc, Nat.add_comm 1])
      refine ⟨m, ?_, ?_⟩
      · rw [heq, appendOpcode_len, Nat.add_assoc, Nat.add_comm 1]
        rfl
      · rw [hprog, program_appendOpcode k s hloaded, List.append_assoc, List.singleton_append]

/-- Settles O8. -/
theorem loaderAppendsTheSymbolsOfTheText : Obligations.LoaderAppendsTheSymbolsOfTheText := by
  intro t s hr hloaded hfits
  obtain ⟨m, heq, hprog⟩ := loadChars_of_fits hr hloaded hfits
  exact ⟨_, rfl, by rw [heq], hprog⟩

end Sys2Proof.Machine

/-!
O10, O11, O13, O14, O16. Reset and boot (spec/70_reset_and_hazards.md R190, R193): what `Reset` sets
and leaves, the state at the first `Step` of a run, and that nothing of the run before shows in it.
-/

namespace Sys2Proof.Machine

theorem memRead_of_tape_nil {s : State} (h : s.tape = []) (a : DataPtr) : memRead a s = 0#8 := by
  rw [memRead, h, Memory.read, Memory.unlisted]

/-- Settles O10: every register by its own rule. -/
theorem resetSetsEveryRegister : Obligations.ResetSetsEveryRegister := fun s =>
  ⟨resetEvent s, rfl, resetEvent_rs s, resetEvent_ldovf s, resetEvent_faultInfo s, rfl,
    resetEvent_len s, rfl, resetEvent_imem s, resetEvent_pc s, rfl, memRead_of_tape_nil rfl,
    resetEvent_out s⟩

/-- Settles O11: a `Reset` at the head of the host's moves is the turn, whatever `RS` is. -/
theorem resetWinsInEveryRunState : Obligations.ResetWinsInEveryRunState := by
  intro s later hm
  simp [step, turn, hm, resetEvent]

/-- R40: in `LOAD` with nothing truncated, `Start` sets `RS` and nothing else. -/
theorem startEvent_of_load {s : State} (hr : s.rs = .load) (hovf : s.ldovf = false) :
    startEvent s = { s with rs := .run } := by
  simp [startEvent, hr, hovf]

/-- Settles O13: after `Reset` the text is the whole program, and nothing of it is truncated. -/
theorem bootReachesTheEntryState : Obligations.BootReachesTheEntryState := by
  intro t s hfits
  obtain ⟨m, heq, hprog⟩ := loadChars_of_fits (t := t) (s := resetEvent s) rfl (Nat.zero_le _)
    (by rwa [resetEvent_len, Nat.zero_add])
  rw [resetEvent_len, Nat.zero_add] at heq
  have hboot : boot t s = { loadChars t (resetEvent s) with rs := .run } :=
    startEvent_of_load (by rw [heq, resetEvent_rs]) (by rw [heq, resetEvent_ldovf])
  have hprogram : program (boot t s) = loadText t := by rw [hboot]; exact hprog
  have hentry : boot t s =
      { resetEvent s with imem := m, len := (loadText t).length, rs := .run } := by rw [hboot, heq]
  refine ⟨_, hentry, rfl, rfl, rfl, memRead_of_tape_nil rfl, rfl, hentry ▸ hprogram, rfl, _,
    rfl, ?_⟩
  rw [← hentry, hboot]

theorem SameVisible.loadChars {s s' : State} (h : SameVisible s s') (t : List CharCode) :
    SameVisible (loadChars t s) (loadChars t s') := by
  induction t generalizing s s' with
  | nil => exact h
  | cons c t ih => exact ih (h.loadChar c)

/-- Settles O14: two cores look alike from the `Reset` on. -/
theorem resetErasesThePast : Obligations.ResetErasesThePast := fun t _ _ hm =>
  ((sameVisible_resetEvent hm).loadChars t).startEvent

/-- Settles O16. -/
theorem resetStateMeetsTheInvariants : Obligations.ResetStateMeetsTheInvariants :=
  ⟨wf_resetEvent State.reset, ⟨fun _ _ => Nat.zero_le _, fun _ _ => Nat.zero_le _, nofun⟩, rfl⟩

end Sys2Proof.Machine

/-!
O18. The program never outgrows instruction memory (spec/00_scope.md R9, spec/40_loader.md R95): the
depth invariant reads `IMEM`, `LEN` and `LDOVF` only, and of the events only `LoadChar` raises them.
-/

namespace Sys2Proof.Machine

/-- The depth invariant depends on three fields. -/
theorem withinDepth_of_fields_eq {s t : State} (h : WithinDepth s) (himem : t.imem = s.imem)
    (hlen : t.len = s.len) (hovf : t.ldovf = s.ldovf) : WithinDepth t := by
  obtain ⟨hlenfits, himemfits, hfull⟩ := h
  exact ⟨by rwa [hlen], by rwa [himem], by rwa [hovf, hlen]⟩

theorem withinDepth_of_coreStep {s t : State} (h : WithinDepth s) (ht : coreStep s = .next t) :
    WithinDepth t := by
  obtain ⟨himem, hlen⟩ := coreStep_keeps_program ht
  exact withinDepth_of_fields_eq h himem hlen (coreStep_ldovf ht)

/-- Where the program fits and does not fill the memory, one more word fits. -/
theorem fits_succ_of_fits {depth : Option Nat} {n : Nat} (h : Config.Fits depth n)
    (hroom : depth ≠ some n) : Config.Fits depth (n + 1) := fun d hd =>
  lt_of_le_of_ne (h d hd) fun hn => hroom (hn ▸ hd)

section Events

variable {s : State} (h : WithinDepth s)
include h

theorem withinDepth_dropHostMove : WithinDepth (dropHostMove s) :=
  withinDepth_of_fields_eq h rfl rfl rfl

theorem withinDepth_resetEvent : WithinDepth (resetEvent s) :=
  ⟨fun _ _ => Nat.zero_le _, h.imem_fits, nofun⟩

theorem withinDepth_setLdovf (hfull : Config.imemDepth = some s.len) : WithinDepth (setLdovf s) :=
  ⟨h.len_fits, h.imem_fits, fun _ => hfull⟩

/-- R93, R95: a word is appended only where there is room, and then `LDOVF` is 0. -/
theorem withinDepth_appendOpcode (k : Opcode) (hroom : Config.imemDepth ≠ some s.len) :
    WithinDepth (appendOpcode k s) := by
  have hfits := fits_succ_of_fits h.len_fits hroom
  refine ⟨hfits, fun d hd => ?_, fun hovf => absurd (h.ldovf_means_full hovf) hroom⟩
  rw [appendOpcode_imem, writeFrom_length]
  exact max_le (h.imem_fits d hd) (hfits d hd)

theorem withinDepth_loadChar (c : CharCode) : WithinDepth (loadChar c s) := by
  unfold loadChar
  obtain ⟨-, heq⟩ | ⟨k, -, -, hfull, heq⟩ | ⟨k, -, -, hroom, heq⟩ :=
    loadCharIn_cases Config.imemDepth c s <;> rw [heq]
  · exact h
  · exact withinDepth_setLdovf h hfull
  · exact withinDepth_appendOpcode h k hroom

theorem withinDepth_startEvent : WithinDepth (startEvent s) := by
  obtain ⟨-, -, heq⟩ | ⟨-, heq⟩ := startEvent_cases s <;> rw [heq]
  · exact withinDepth_of_fields_eq h rfl rfl rfl
  · exact h

end Events

/-- Settles O18: the six kinds of turn, each by the rule of its event. -/
theorem stepKeepsTheProgramWithinDepth : Obligations.StepKeepsTheProgramWithinDepth := by
  intro s t _ h ht
  obtain ⟨-, hcore⟩ | ⟨-, -, rfl⟩ | ⟨c, -, -, rfl⟩ | ⟨-, -, rfl⟩ | ⟨-, -, -, hcore⟩ |
    ⟨-, -, -, rfl⟩ := step_next ht
  · exact withinDepth_of_coreStep h hcore
  · exact withinDepth_resetEvent (withinDepth_dropHostMove h)
  · exact withinDepth_loadChar (withinDepth_dropHostMove h) c
  · exact withinDepth_startEvent (withinDepth_dropHostMove h)
  · exact withinDepth_of_coreStep (withinDepth_dropHostMove h) hcore
  · exact withinDepth_dropHostMove h

end Sys2Proof.Machine

/-!
O19, O20. The registers as words (spec/10_state.md R29, R30, section 7): the fields of the two
status words, and the width in which every index of the program can be written (spec/00_scope.md R9).
-/

namespace Sys2Proof.Machine

section Fields

variable (f : FaultInfo)

theorem FaultInfo.word_mod_four : f.word % 4 = f.cause.code.toNat := by
  have := f.cause.code.isLt
  rw [FaultInfo.word]
  omega

theorem FaultInfo.word_bit_two : f.word / 4 % 2 = f.dir.code.toNat := by
  have := f.cause.code.isLt
  have := f.dir.code.isLt
  rw [FaultInfo.word]
  omega

theorem FaultInfo.word_div_eight : f.word / 8 = f.atIndex := by
  have := f.cause.code.isLt
  have := f.dir.code.isLt
  rw [FaultInfo.word]
  omega

end Fields

/-- R30: a cause is recorded in `FAULT` and only there. -/
theorem cause_code_ne_zero_iff {s : State} (h : WF s) :
    s.faultInfo.cause.code.toNat ≠ 0 ↔ s.rs = .fault := by
  by_cases hr : s.rs = .fault
  · simp [hr, (h.fault_recorded hr).1, FaultCause.code]
  · simp [hr, h.no_record_outside_fault hr, FaultInfo.zero, FaultCause.code]

/-- Settles O19: `STATUS` by its eight values, `FAULTINFO` by the three field rules. -/
theorem statusWordsHoldTheirFields : Obligations.StatusWordsHoldTheirFields := by
  intro s
  refine ⟨?rs, ?ldovf, ?cause, ?dir, s.faultInfo.word_div_eight, fun h => ?inFault⟩
  case rs =>
    rw [State.statusWord]
    cases s.rs <;> cases s.ldovf <;> rfl
  case ldovf =>
    rw [State.statusWord]
    cases s.rs <;> cases s.ldovf <;> rfl
  case cause =>
    rw [FaultInfo.word_mod_four]
    cases s.faultInfo.cause <;> rfl
  case dir =>
    rw [FaultInfo.word_bit_two]
    cases s.faultInfo.dir <;> rfl
  case inFault => rw [FaultInfo.word_mod_four, cause_code_ne_zero_iff h]

/-- R9: every length up to the depth can be written in `PC_W` bits. -/
theorem lt_two_pow_pcBits (d : Nat) : d < 2 ^ Config.pcBits d := Nat.lt_log2_self

theorem two_pow_pcBits_pred_le {d : Nat} (hd : 1 ≤ d) : 2 ^ (Config.pcBits d - 1) ≤ d :=
  Nat.log2_self_le (Nat.one_le_iff_ne_zero.1 hd)

theorem imemDepth_cases :
    Config.imemDepth = none ∨ ∃ d, Config.imemDepth = some d ∧ 1 ≤ d := by
  rw [Config.imemDepth]
  cases Config.imemWordsAfterFirst with
  | none => exact .inl rfl
  | some n => exact .inr ⟨n + 1, rfl, Nat.le_add_left 1 n⟩

/-- R30, R162: `AT` is 0, or the index of the bracket at which the program faulted. -/
theorem atIndex_le_len {s : State} (h : WF s) : s.faultInfo.atIndex ≤ s.len := by
  by_cases hr : s.rs = .fault
  · obtain ⟨-, hat, -⟩ := h.fault_recorded hr
    exact hat.trans_le h.pc_le_len
  · rw [h.no_record_outside_fault hr]
    exact Nat.zero_le _

/-- Settles O20: the width of `d`, and that no index goes beyond `LEN`. -/
theorem pcWidthHoldsEveryIndex : Obligations.PcWidthHoldsEveryIndex := by
  refine ⟨fun d hd => ⟨lt_two_pow_pcBits d, Nat.lt_succ_of_le (two_pow_pcBits_pred_le hd)⟩,
    imemDepth_cases, fun s d h _ hlen => ?_⟩
  have hwidth : ∀ n ≤ s.len, n < 2 ^ Config.pcBits d :=
    fun n hn => (hn.trans hlen).trans_lt (lt_two_pow_pcBits d)
  exact ⟨hwidth _ h.pc_le_len, hwidth _ le_rfl, hwidth _ (atIndex_le_len h)⟩

end Sys2Proof.Machine

/-!
O7, O22, O24. Progress and the end of a run (spec/70_reset_and_hazards.md section 4,
spec/60_exceptions.md R167): the core steps exactly in `RUN`, and an ended run is left by
`Reset` only.
-/

namespace Sys2Proof.Machine

/-- R40: the core's step is of `RUN` only. -/
theorem run_of_coreStep {s t : State} (h : coreStep s = .next t) : s.rs = .run :=
  (coreStep_rs_cases h).1

/-- Settles O22: progress by `PC <= LEN`, and the named stop of each other run state. -/
theorem coreStepsExactlyInRun : Obligations.CoreStepsExactlyInRun := by
  intro s h
  refine ⟨⟨fun ⟨_, ht⟩ => run_of_coreStep ht, fun hr => exists_coreStep_of_run hr h.pc_le_len⟩,
    fun hr => ?_, fun hr => ?_, fun hr => ?_⟩ <;> rw [coreStep_eq_fault_iff, nextAction, hr]
  obtain ⟨-, hat, -⟩ := h.fault_recorded hr
  rw [hat]

theorem startEvent_of_not_load {s : State} (hr : s.rs ≠ .load) : startEvent s = s := by
  obtain ⟨hload, -⟩ | ⟨-, heq⟩ := startEvent_cases s
  · exact absurd hload hr
  · exact heq

/-- Settles O7. -/
theorem loadAndStartIgnoredOutsideLoad : Obligations.LoadAndStartIgnoredOutsideLoad :=
  fun _ _ hr => ⟨loadCharIn_of_not_load hr, startEvent_of_not_load hr⟩

/-- Settles O24: the core has no turn, and of the host's moves only `Reset` acts outside `LOAD`. -/
theorem endedRunsAreAbsorbing : Obligations.EndedRunsAreAbsorbing := by
  intro s hend
  have hrun : s.rs ≠ .run := by obtain hr | hr := hend <;> simp [hr]
  have hload : (dropHostMove s).rs ≠ .load := by
    obtain hr | hr := hend <;> simp [hr]
  refine ⟨fun t ht => hrun (run_of_coreStep ht), fun t ht hreset => ?_⟩
  obtain ⟨-, hcore⟩ | ⟨ms, hm, -⟩ | ⟨c, -, -, rfl⟩ | ⟨-, -, rfl⟩ | ⟨-, -, hr, -⟩ |
    ⟨-, -, -, rfl⟩ := step_next ht
  · exact absurd (run_of_coreStep hcore) hrun
  · exact absurd (by rw [hm]; rfl) hreset
  · exact loadCharIn_of_not_load hload
  · exact startEvent_of_not_load hload
  · exact absurd hr hrun
  · rfl

end Sys2Proof.Machine

/-!
O25. The frame of every instruction (spec/10_state.md section 11): what each may write, and the
cells that none stores to.
-/

namespace Sys2Proof.Machine

/-- What a pointer move keeps, for any new pointer, so that the arithmetic of the wrap is not
evaluated where it is not spoken of. -/
theorem advance_setDp_keeps (p : DataPtr) (s : State) :
    (advance (setDp p s)).hostMoves = s.hostMoves ∧ (advance (setDp p s)).tape = s.tape ∧
      (advance (setDp p s)).pc = s.pc + 1 ∧ (advance (setDp p s)).rs = s.rs ∧
      (advance (setDp p s)).faultInfo = s.faultInfo := ⟨rfl, rfl, rfl, rfl, rfl⟩

section Frame

variable {i : Instr} {s t : State} (h : exec i s = .next t)
include h

theorem exec_hostMoves : t.hostMoves = s.hostMoves := by
  obtain ⟨hi, rfl⟩ | ⟨hi, rfl⟩ | ⟨hi, rfl⟩ | ⟨hi, rfl⟩ | ⟨hi, rfl⟩ | ⟨hi, rfl⟩ |
    ⟨hi, ⟨-, rfl⟩ | ⟨j, -, -, rfl⟩ | ⟨-, -, rfl⟩⟩ |
    ⟨hi, ⟨-, rfl⟩ | ⟨j, -, -, rfl⟩ | ⟨-, -, rfl⟩⟩ := exec_next h
  · exact (advance_setDp_keeps _ s).1
  · exact (advance_setDp_keeps _ s).1
  all_goals rfl

theorem exec_dp (hright : i ≠ .moveRight) (hleft : i ≠ .moveLeft) : t.dp = s.dp := by
  obtain ⟨hi, rfl⟩ | ⟨hi, rfl⟩ | ⟨hi, rfl⟩ | ⟨hi, rfl⟩ | ⟨hi, rfl⟩ | ⟨hi, rfl⟩ |
    ⟨hi, ⟨-, rfl⟩ | ⟨j, -, -, rfl⟩ | ⟨-, -, rfl⟩⟩ |
    ⟨hi, ⟨-, rfl⟩ | ⟨j, -, -, rfl⟩ | ⟨-, -, rfl⟩⟩ := exec_next h
  · exact absurd hi hright
  · exact absurd hi hleft
  all_goals rfl

theorem exec_tape (hinc : i ≠ .increment) (hdec : i ≠ .decrement) : t.tape = s.tape := by
  obtain ⟨hi, rfl⟩ | ⟨hi, rfl⟩ | ⟨hi, rfl⟩ | ⟨hi, rfl⟩ | ⟨hi, rfl⟩ | ⟨hi, rfl⟩ |
    ⟨hi, ⟨-, rfl⟩ | ⟨j, -, -, rfl⟩ | ⟨-, -, rfl⟩⟩ |
    ⟨hi, ⟨-, rfl⟩ | ⟨j, -, -, rfl⟩ | ⟨-, -, rfl⟩⟩ := exec_next h
  · exact (advance_setDp_keeps _ s).2.1
  · exact (advance_setDp_keeps _ s).2.1
  · exact absurd hi hinc
  · exact absurd hi hdec
  all_goals rfl

theorem exec_of_not_bracket (hopen : i ≠ .jumpIfZero) (hclose : i ≠ .jumpIfNonZero) :
    t.pc = s.pc + 1 ∧ t.rs = s.rs ∧ t.faultInfo = s.faultInfo := by
  cases i with
  | jumpIfZero => exact absurd rfl hopen
  | jumpIfNonZero => exact absurd rfl hclose
  | moveRight =>
    cases h
    exact (advance_setDp_keeps _ s).2.2
  | moveLeft =>
    cases h
    exact (advance_setDp_keeps _ s).2.2
  | _ =>
    cases h
    exact ⟨rfl, rfl, rfl⟩

end Frame

/-- R42, R120, R121: no instruction stores to a cell other than the one at `DP`. -/
theorem exec_memRead_other {i : Instr} {s t : State} (hs : Memory.wf s.tape = true)
    (h : exec i s = .next t) {a : DataPtr} (ha : a ≠ s.dp) : memRead a t = memRead a s := by
  by_cases hinc : i = .increment
  · subst hinc
    cases h.symm.trans (exec_increment s)
    exact memRead_addToCell_other hs _ ha
  by_cases hdec : i = .decrement
  · subst hdec
    cases h.symm.trans (exec_decrement s)
    exact memRead_addToCell_other hs _ ha
  · exact memRead_eq_of_tape_eq (exec_tape h hinc hdec) a

/-- Settles O25. -/
theorem instructionsTouchOnlyTheirState : Obligations.InstructionsTouchOnlyTheirState := by
  intro i s t h
  obtain ⟨himem, hlen⟩ := exec_keeps_program h
  refine ⟨himem, hlen, exec_ldovf h, exec_hostMoves h, exec_dp h, exec_tape h,
    fun hs _ => exec_memRead_other hs h, fun hi => ?out, exec_of_not_bracket h⟩
  case out =>
    obtain ⟨hout, -⟩ | ⟨-, heq⟩ := exec_out_cases h
    · exact absurd hout hi
    · exact heq

end Sys2Proof.Machine

/-!
O12, O15. Whose event a step is (spec/10_state.md R40): one rule for each move at the head of the
host's list, then the pins of one clock edge, each of which is one such move where it is high (R35).
-/

namespace Sys2Proof.Machine

/-! ## One rule for each move -/

section Moves

variable {s : State} {later : List HostMove}

theorem dropHostMove_of_cons {m : HostMove} (hm : s.hostMoves = m :: later) :
    dropHostMove s = { s with hostMoves := later } := by
  rw [dropHostMove, hm, List.tail_cons]

theorem step_of_reset (hm : s.hostMoves = .reset :: later) :
    step s = .next (resetEvent { s with hostMoves := later }) := by
  rw [← dropHostMove_of_cons hm]
  simp [step, turn, hm]

theorem step_of_loadChar {c : CharCode} (hm : s.hostMoves = .loadChar c :: later) :
    step s = .next (loadChar c { s with hostMoves := later }) := by
  rw [← dropHostMove_of_cons hm]
  simp [step, turn, hm]

theorem step_of_start (hm : s.hostMoves = .start :: later) :
    step s = .next (startEvent { s with hostMoves := later }) := by
  rw [← dropHostMove_of_cons hm]
  simp [step, turn, hm]

theorem startEvent_of_ignored (h : s.rs ≠ .load ∨ s.ldovf = true) : startEvent s = s :=
  h.elim startEvent_of_not_load startEvent_of_ldovf

/-- R180: outside `RUN` a host that listens sees nothing happen. -/
theorem step_of_listen_not_run (hr : s.rs ≠ .run) (hm : s.hostMoves = .listen :: later) :
    step s = .next { s with hostMoves := later } := by
  rw [← dropHostMove_of_cons hm]
  cases hrs : s.rs <;> simp_all [step, turn]

end Moves

/-- Settles O12: the move at the head of the list says whose event the step is. -/
theorem eventsAreTakenOneAtATime : Obligations.EventsAreTakenOneAtATime := by
  refine fun s m later => ⟨step_of_listening, fun hm => ⟨?reset, ?loadChar, ?start, ?ignored,
    ?listenInRun, ?listenElsewhere⟩⟩
  case reset =>
    rintro rfl
    exact step_of_reset hm
  case loadChar =>
    rintro c rfl
    exact step_of_loadChar hm
  case start =>
    rintro rfl hr hovf
    rw [step_of_start hm, startEvent_of_load (s := { s with hostMoves := later }) hr hovf]
  case ignored =>
    rintro rfl hno
    rw [step_of_start hm, startEvent_of_ignored (s := { s with hostMoves := later }) hno]
  case listenInRun =>
    rintro rfl hr
    exact step_of_listen_first hr hm
  case listenElsewhere =>
    rintro rfl hr
    exact step_of_listen_not_run hr hm

/-! ## The pins of one clock edge -/

theorem run_succ_of_next {s t : State} (k : Nat) (h : step s = .next t) :
    Sys2Proof.core.run (k + 1) s = Sys2Proof.core.run k t := by
  simp [Host.Core.run, core, h]

/-- A pin that gives the move of an event: where it is high, one step applies the event. -/
theorem run_pin {move : HostMove} {event : State → State}
    (hevent : ∀ s m, step { s with hostMoves := move :: m } = .next { event s with hostMoves := m })
    (high : Bool) (k : Nat) (s : State) (m : List HostMove) :
    Sys2Proof.core.run (high.toNat + k)
        { s with hostMoves := (if high then [move] else []) ++ m } =
      Sys2Proof.core.run k { (if high then event s else s) with hostMoves := m } := by
  cases high with
  | false => rw [Bool.toNat_false, Nat.zero_add]; rfl
  | true => rw [Bool.toNat_true, Nat.add_comm]; exact run_succ_of_next k (hevent s m)

theorem sample_of_idle {s : State} (p : InPorts) (hm : s.hostMoves = []) :
    s.sample p = { s with hostMoves := p.moves } := by
  rw [State.sample, hm, List.nil_append]

/-- Settles O15: the first steps by the move at the head, the whole edge pin by pin. -/
theorem sampledInputsAreOrdered : Obligations.SampledInputsAreOrdered := by
  intro p s hm startThenListen loadThenRest
  have hstart : startThenListen = (if p.start then [.start] else []) ++ [.listen] := by
    cases hst : p.start <;> simp [startThenListen, hst]
  have hload : loadThenRest =
      (if p.ldValid then [.loadChar p.ldChar] else []) ++ startThenListen := by
    cases hld : p.ldValid <;> simp [loadThenRest, hld]
  have hmoves : p.moves = (if p.rst then [.reset] else []) ++ loadThenRest := by
    rw [InPorts.moves, hload, hstart, List.append_assoc, List.append_assoc]
  rw [sample_of_idle p hm, hmoves]
  refine ⟨fun hrst => ?reset, fun hrst hld => ?loadChar, fun hrst hld hst => ?start,
    fun hrst hld hst => ?listen, ?edge, ?coreTurn⟩
  case reset =>
    rw [hrst]
    exact step_reset_first s loadThenRest
  case loadChar =>
    rw [hrst, hload, hld]
    exact step_of_loadChar rfl
  case start =>
    rw [hrst, hload, hld, hstart, hst]
    exact step_of_start rfl
  case listen =>
    rw [hrst, hload, hld, hstart, hst]
    exact step_of_last_listen s hm
  case edge =>
    rw [Nat.add_assoc, run_pin step_reset_first, hload, run_pin (step_loadChar_first p.ldChar),
      hstart]
    exact run_pin step_start_first p.start 0 _ [.listen]
  case coreTurn =>
    refine step_of_last_listen _ ?_
    split_ifs <;> simp [hm]

end Sys2Proof.Machine

/-!
O30, O33. The laws of the pointer moves and of the cell arithmetic (spec/42_pointer_moves.md,
spec/43_cell_arith.md): two of a kind in opposite directions undo each other.
-/

namespace Sys2Proof.Machine

theorem prevPtr_nextPtr (p : DataPtr) : prevPtr (nextPtr p) = p := by
  have := dataPtr_lt p
  ext
  rw [prevPtr_val_mod, nextPtr_val_mod]
  omega

theorem nextPtr_prevPtr (p : DataPtr) : nextPtr (prevPtr p) = p := by
  have := dataPtr_lt p
  ext
  rw [nextPtr_val_mod, prevPtr_val_mod]
  omega

/-- Two moves that come back to the pointer leave the state but for `PC`. -/
theorem advance_setDp_twice {p q : DataPtr} {s : State} (h : q = s.dp) :
    advance (setDp q (advance (setDp p s))) = { s with pc := s.pc + 2 } := by
  rw [h]
  rfl

/-- Settles O30: a move and its inverse, then the repeated move of O28. -/
theorem pointerMovesAreInverse : Obligations.PointerMovesAreInverse := by
  refine fun s => ⟨fun t u ht hu => ?rightLeft, fun t u ht hu => ?leftRight,
    fun k => execTimes_moveRight k s⟩
  case rightLeft =>
    cases ht.symm.trans (exec_moveRight s)
    cases hu.symm.trans (exec_moveLeft _)
    exact advance_setDp_twice (prevPtr_nextPtr s.dp)
  case leftRight =>
    cases ht.symm.trans (exec_moveLeft s)
    cases hu.symm.trans (exec_moveRight _)
    exact advance_setDp_twice (nextPtr_prevPtr s.dp)

/-- Adding a constant and then its negative leaves the state but for `PC`. -/
theorem addToCell_addToCell {d e : CellValue} (hde : d + e = 0#8) {s : State}
    (hs : Memory.wf s.tape = true) : addToCell e (addToCell d s) = { s with pc := s.pc + 2 } := by
  have hdp : (addToCell d s).dp = s.dp := rfl
  rw [addToCell_eq e, hdp, memRead_addToCell_same hs, BitVec.add_assoc, hde, BitVec.add_zero,
    addToCell_eq d, write_write_same hs, write_memRead_self hs]

/-- Settles O33: the constants 1 and 255 are negatives of each other modulo 256. -/
theorem cellArithmeticIsInverse : Obligations.CellArithmeticIsInverse := by
  refine fun s hs => ⟨fun t u ht hu => ?incDec, fun t u ht hu => ?decInc⟩
  case incDec =>
    cases ht.symm.trans (exec_increment s)
    cases hu.symm.trans (exec_decrement _)
    exact addToCell_addToCell rfl hs
  case decInc =>
    cases ht.symm.trans (exec_decrement s)
    cases hu.symm.trans (exec_increment _)
    exact addToCell_addToCell rfl hs

end Sys2Proof.Machine

/-!
O43. The cost of a scan (spec/45_loop_jumps.md R146, R152): what one pass adds to the loop heads,
said once, then the bound on `LEVEL` and the count of the reads by induction over the passes.
-/

namespace Sys2Proof.Machine

/-! ## The forward scan -/

/-- A pass ends the scan at its match, or goes on with a level that rises by at most 1. -/
theorem forwardHeads_succ (s : State) (left scan level : Nat) :
    (forwardHeads s (left + 1) scan level = [(scan, level)] ∧
      scanForwardLoop s (left + 1) scan level = some scan) ∨
    ∃ level' ≤ level + 1,
      forwardHeads s (left + 1) scan level =
        (scan, level) :: forwardHeads s left (scan + 1) level' ∧
      scanForwardLoop s (left + 1) scan level = scanForwardLoop s left (scan + 1) level' := by
  rw [forwardHeads, scanForwardLoop]
  cases instrAt scan s with
  | jumpIfZero => exact .inr ⟨level + 1, le_rfl, rfl, rfl⟩
  | jumpIfNonZero =>
    by_cases hlevel : level = 0
    · exact .inl ⟨by simp [hlevel], by simp [hlevel]⟩
    · exact .inr ⟨level - 1, by omega, by simp [hlevel], by simp [hlevel]⟩
  | _ => exact .inr ⟨level, by omega, rfl, rfl⟩

theorem forwardHeads_level_le {s : State} {left scan level : Nat} :
    ∀ h ∈ forwardHeads s left scan level, h.2 ≤ level + left := by
  induction left generalizing scan level with
  | zero => simp [forwardHeads]
  | succ left ih =>
    obtain ⟨hheads, -⟩ | ⟨level', hlevel', hheads, -⟩ := forwardHeads_succ s left scan level <;>
      rw [hheads]
    · simp
    · intro h hh
      obtain rfl | hh := List.mem_cons.1 hh
      · exact Nat.le_add_right _ _
      · have := ih h hh
        omega

/-- R147: the passes that get by the bounds check, of a scan that has `left` indices before it. -/
theorem countP_forwardHeads {s : State} {left scan level : Nat} :
    (forwardHeads s left scan level).countP (fun h => decide (h.1 < scan + left)) ≤ left ∧
    ∀ j, scanForwardLoop s left scan level = some j →
      (forwardHeads s left scan level).countP (fun h => decide (h.1 < scan + left)) =
        j + 1 - scan := by
  induction left generalizing scan level with
  | zero => simp [forwardHeads, scanForwardLoop]
  | succ left ih =>
    obtain ⟨hheads, hscan⟩ | ⟨level', -, hheads, hscan⟩ := forwardHeads_succ s left scan level <;>
      rw [hheads, hscan]
    · simp
    · obtain ⟨hle, hmatch⟩ := ih (scan := scan + 1) (level := level')
      have hbound : scan + (left + 1) = scan + 1 + left := by omega
      rw [List.countP_cons_of_pos (by simp), hbound]
      refine ⟨Nat.succ_le_succ hle, fun j hj => ?_⟩
      have := (scanForwardLoop_some hj).1
      rw [hmatch j hj]
      omega

/-! ## The backward scan -/

/-- A pass ends the scan at its match, or goes on with a level that rises by at most 1. -/
theorem backwardHeads_succ (s : State) (scan level : Nat) :
    (backwardHeads s (scan + 1) level = [(scan + 1, level)] ∧
      scanBackwardLoop s (scan + 1) level = some scan) ∨
    ∃ level' ≤ level + 1,
      backwardHeads s (scan + 1) level = (scan + 1, level) :: backwardHeads s scan level' ∧
      scanBackwardLoop s (scan + 1) level = scanBackwardLoop s scan level' := by
  rw [backwardHeads, scanBackwardLoop]
  cases instrAt scan s with
  | jumpIfNonZero => exact .inr ⟨level + 1, le_rfl, rfl, rfl⟩
  | jumpIfZero =>
    by_cases hlevel : level = 0
    · exact .inl ⟨by simp [hlevel], by simp [hlevel]⟩
    · exact .inr ⟨level - 1, by omega, by simp [hlevel], by simp [hlevel]⟩
  | _ => exact .inr ⟨level, by omega, rfl, rfl⟩

theorem backwardHeads_level_le {s : State} {beyond level : Nat} :
    ∀ h ∈ backwardHeads s beyond level, h.2 ≤ level + beyond := by
  induction beyond generalizing level with
  | zero => simp [backwardHeads]
  | succ scan ih =>
    obtain ⟨hheads, -⟩ | ⟨level', hlevel', hheads, -⟩ := backwardHeads_succ s scan level <;>
      rw [hheads]
    · simp
    · intro h hh
      obtain rfl | hh := List.mem_cons.1 hh
      · exact Nat.le_add_right _ _
      · have := ih h hh
        omega

theorem countP_backwardHeads {s : State} {beyond level : Nat} :
    (backwardHeads s beyond level).countP (fun h => decide (0 < h.1)) ≤ beyond ∧
    ∀ i, scanBackwardLoop s beyond level = some i →
      (backwardHeads s beyond level).countP (fun h => decide (0 < h.1)) = beyond - i := by
  induction beyond generalizing level with
  | zero => simp [backwardHeads, scanBackwardLoop]
  | succ scan ih =>
    obtain ⟨hheads, hscan⟩ | ⟨level', -, hheads, hscan⟩ := backwardHeads_succ s scan level <;>
      rw [hheads, hscan]
    · simp
    · obtain ⟨hle, hmatch⟩ := ih (level := level')
      rw [List.countP_cons_of_pos (by simp)]
      refine ⟨Nat.succ_le_succ hle, fun i hi => ?_⟩
      have := (scanBackwardLoop_some hi).1
      rw [hmatch i hi]
      omega

/-- Settles O43: the forward scan has `LEN - (i + 1)` indices before it, the backward scan `i`. -/
theorem scansAreBounded : Obligations.ScansAreBounded := by
  intro s i hi
  have hlen : i + 1 + (s.len - (i + 1)) = s.len := Nat.add_sub_cancel' hi
  obtain ⟨hforward, hforwardMatch⟩ :=
    countP_forwardHeads (s := s) (left := s.len - (i + 1)) (scan := i + 1) (level := 0)
  rw [hlen] at hforward hforwardMatch
  obtain ⟨hbackward, hbackwardMatch⟩ := countP_backwardHeads (s := s) (beyond := i) (level := 0)
  refine ⟨fun h hh => ?forwardLevel, fun h hh => ?backwardLevel, fun j hj => ?forwardMatch,
    hbackwardMatch, ?forwardReads, ?backwardReads⟩
  case forwardLevel =>
    have := forwardHeads_level_le h hh
    omega
  case backwardLevel =>
    have := backwardHeads_level_le h hh
    omega
  case forwardMatch => exact (hforwardMatch j hj).trans (Nat.add_sub_add_right j 1 i)
  case forwardReads => exact hforward.trans (by omega)
  case backwardReads => exact hbackward.trans (by omega)

end Sys2Proof.Machine

/-!
O45, O46. Loops (spec/45_loop_jumps.md R151, section 1): the two brackets of a matched pair branch
alike, and an empty loop on a non-zero cell is a step that answers its own state.
-/

namespace Sys2Proof.Machine

/-- Settles O45: each bracket jumps to the other (O42) or falls through, by the same test. -/
theorem matchedPairIsAWhileLoop : Obligations.MatchedPairIsAWhileLoop := by
  intro s i j hloaded hr hi hopen hscan hpc
  obtain ⟨-, hj, hclose⟩ := scanForward_some hscan
  have hback : scanBackward j s = some i :=
    (scansAreInverse s i j hloaded hi hj hopen hclose).1 hscan
  obtain hpc | hpc := hpc
  · rw [coreStep_of_pc_lt hr (hpc ▸ hi), hpc, hopen]
    split
    · next hz => exact exec_jumpIfZero_of_match hz (hpc ▸ hscan)
    · next hnz =>
      rw [exec_jumpIfZero_of_ne hnz, advance, hpc]
  · rw [coreStep_of_pc_lt hr (hpc ▸ hj), hpc, hclose]
    split
    · next hz =>
      rw [exec_jumpIfNonZero_of_eq hz, advance, hpc]
    · next hnz => exact exec_jumpIfNonZero_of_match hnz (hpc ▸ hback)

/-- A step that answers its own state is taken for ever. -/
theorem run_of_step_self {s : State} (h : step s = .next s) (k : Nat) :
    Sys2Proof.core.run k s = .next s := by
  induction k with
  | zero => rfl
  | succ k ih => rw [run_succ_of_next k h, ih]

theorem not_ends_of_coreStep_self {s e : State} (hr : s.rs = .run) (h : coreStep s = .next s) :
    ¬Ends s e := by
  intro hends
  induction hends with
  | here hend => simp [hr] at hend
  | after _ ht _ ih =>
    cases h.symm.trans ht
    exact ih hr h

/-- Settles O46: the jump back to the `[` before the bracket leads to the bracket again. -/
theorem emptyLoopIsNeverLeft : Obligations.EmptyLoopIsNeverLeft := by
  intro s hr hm hnz hpos hpc hopen hclose
  have hcore : coreStep s = .next s := by
    rw [coreStep_of_pc_lt hr hpc, hclose,
      exec_jumpIfNonZero_of_match hnz (scanBackward_eq_pred hpos hopen), advance_setPc_pred hpos]
  have hstep : step s = .next s := (step_of_listening hm).trans hcore
  exact ⟨run_of_step_self hstep, fun _ => not_ends_of_coreStep_self hr hcore⟩

end Sys2Proof.Machine
